-- ==== Sys2Proof/Word.lean ====
section
/-! DEFINITION. The machine's word types (spec/00_scope.md R5, R8): cells, ACC and IR are 8-bit vectors, an opcode, an
operand and an address are 4-bit vectors. -/

namespace Sys2Proof

/-- A memory cell, ACC or IR: 8 bits, bit 7 the most significant (R5 `CELL_BITS`, R8). -/
abbrev Byte := BitVec 8

/-- An opcode or an operand: 4 bits (R5 `OPCODE_BITS`, `OPERAND_BITS`). -/
abbrev Nibble := BitVec 4

/-- An address: 4 bits, so that every address names one of the 16 cells (R5 `ADDR_BITS`, R32). -/
abbrev Addr := Nibble

end Sys2Proof
end

