-- ==== Sys2Proof/Config.lean ====
section
/-! DEFINITION. The fixed sizes of the machine (spec/00_scope.md R5) and the open parameters of its host side (R6). The
core itself has no open parameter: no definition that a step runs reads a free value. One more free value,
`Config.idleDiagOpcode`, stands beside the pins it is a function of, in Machine/Pins.lean. -/

namespace Sys2Proof

/-- `MEM_CELLS`: the number of memory cells (R5). -/
abbrev Config.memCells : Nat := 16

/-- `CELL_BITS`: the width of a cell, also the number of text characters that make one (R5, R121). -/
abbrev Config.cellBits : Nat := 8

/-- `INSN_BITS`: every instruction is one cell (R5, R50). -/
abbrev Config.insnBits : Nat := 8

/-- `DEFAULT_TAIL`: cells 10 to 15 of the default fallback program, by their position in the tail. OPEN
(92_eei_decisions.md D21, 91_not_in_source.md N10): a free value. Log 10. -/
opaque Config.defaultTail : Nat → Byte

/-- `OUT_TEXT_STYLE`, digit case: whether the output line's hexadecimal digits are upper case. OPEN (D7, N11): a free
value. Log 11. -/
opaque Config.outTextUpperCase : Bool

/-- `OUT_TEXT_STYLE`, padding: whether the output line always shows two hexadecimal digits. OPEN (D7, N11): a free value.
Log 11. -/
opaque Config.outTextPadded : Bool

/-- `OUT_TEXT_STYLE`, line end: what ends an output line. OPEN (D7, N11): a free value. Log 11. -/
opaque Config.outTextLineEnd : String

/-- Whether an image source that exists but holds no bit counts as absent, so that the Loader falls back to its default
program. Not stated (91_not_in_source.md N18): a free value. Log 13. -/
opaque Config.emptySourceIsAbsent : Bool

/-- What `Halted` shows before the first `Reset`, when the block has no state yet. OPEN (93_implementation_defined.md I13:
"any value, and irrelevant"): a free value, DESIGN CHOICE. Log 23. -/
opaque Config.haltedBeforeReset : Bool

end Sys2Proof
end

