-- ==== Sys2Proof/Syntax.lean ====
section
/-! DEFINITION. The instruction set as syntax: one constructor per row of spec/opcode_table.json, which covers all 256
byte values (spec/30_encoding.md R55). Every constructor carries the 4-bit operand field of format `OA` (R50), also where
the instruction ignores it (R57), because the field is part of the instruction's byte. -/

namespace Sys2Proof

/-- The instructions. What an operand means is R53: an address to read (LDA, ADD, SUB, CMP), to write (STO) or to go to
(JMP), or nothing (NOP, OUT, HLT and the unrecognized opcodes). -/
inductive Instr where
  | nop (ignored : Nibble)
  | lda (address : Addr)
  | add (address : Addr)
  | sub (address : Addr)
  | sto (address : Addr)
  | out (ignored : Nibble)
  | jmp (address : Addr)
  | hlt (ignored : Nibble)
  | cmp (address : Addr)
  | unr9 (ignored : Nibble)
  | unrA (ignored : Nibble)
  | unrB (ignored : Nibble)
  | unrC (ignored : Nibble)
  | unrD (ignored : Nibble)
  | unrE (ignored : Nibble)
  | unrF (ignored : Nibble)
  deriving DecidableEq, Repr

end Sys2Proof
end

