-- ==== Sys2Proof/WellFormed.lean ====
section
/-! DEFINITION. What must hold of syntax before the machine meets it: for an instruction nothing beyond its type, for a
program image its length. -/

namespace Sys2Proof

/-- Every instruction is well formed: the operand's type is the 4-bit field itself, the operand never takes part in
selecting the operation, and all 16 operand values are accepted by every opcode, used or ignored (spec/30_encoding.md
R54, R57, R58: "There is no illegal encoding."). -/
def Instr.wellFormed : Instr → Bool
  | .nop _ | .lda _ | .add _ | .sub _ | .sto _ | .out _ | .jmp _ | .hlt _ | .cmp _
  | .unr9 _ | .unrA _ | .unrB _ | .unrC _ | .unrD _ | .unrE _ | .unrF _ => true

/-- A program image fits the memory: at most 16 bytes (spec/20_memory.md R41). A longer one is the Loader's LoadOverflow
(spec/60_exceptions.md R127). -/
def imageFits (image : List Byte) : Bool :=
  decide (image.length ≤ Config.memCells)

end Sys2Proof
end

