-- ==== Sys2Proof/Decode.lean ====
section
/-! DEFINITION. The decoder, total on any bytes, and the encoder (spec/30_encoding.md R50 to R59). -/

namespace Sys2Proof

/-- The opcode field: bits 7:4 of the instruction's byte (R50, R51). -/
def opcodeOf (byte : Byte) : Nibble := byte.extractLsb' 4 4

/-- The operand field: bits 3:0 of the instruction's byte (R50, R51). -/
def operandOf (byte : Byte) : Nibble := byte.extractLsb' 0 4

/-- The opcode map (R55, R69): the opcode alone selects the instruction. The last arm is opcode 1111, the one value left. -/
def instrOf (opcode operand : Nibble) : Instr :=
  match opcode with
  | 0b0000#4 => .nop operand
  | 0b0001#4 => .lda operand
  | 0b0010#4 => .add operand
  | 0b0011#4 => .sub operand
  | 0b0100#4 => .sto operand
  | 0b0101#4 => .out operand
  | 0b0110#4 => .jmp operand
  | 0b0111#4 => .hlt operand
  | 0b1000#4 => .cmp operand
  | 0b1001#4 => .unr9 operand
  | 0b1010#4 => .unrA operand
  | 0b1011#4 => .unrB operand
  | 0b1100#4 => .unrC operand
  | 0b1101#4 => .unrD operand
  | 0b1110#4 => .unrE operand
  | _ => .unrF operand

/-- The instruction a byte is: every byte is one (R58). -/
def decodeByte (byte : Byte) : Instr := instrOf (opcodeOf byte) (operandOf byte)

/-- Why a list of bytes holds no instruction. No byte value is among the reasons: there is no illegal encoding (R58). -/
inductive DecodeRefusal where
  /-- The list is empty: there is no cell to read an instruction from. -/
  | noByte
  deriving DecidableEq, Repr

/-- The instruction at the head of a list of bytes and the bytes after it: every instruction is one byte (R50, R59). -/
def decode : List Byte → Except DecodeRefusal (Instr × List Byte)
  | [] => .error .noByte
  | byte :: rest => .ok (decodeByte byte, rest)

/-- The opcode an instruction is encoded with (R55). -/
def Instr.opcode : Instr → Nibble
  | .nop _ => 0b0000#4
  | .lda _ => 0b0001#4
  | .add _ => 0b0010#4
  | .sub _ => 0b0011#4
  | .sto _ => 0b0100#4
  | .out _ => 0b0101#4
  | .jmp _ => 0b0110#4
  | .hlt _ => 0b0111#4
  | .cmp _ => 0b1000#4
  | .unr9 _ => 0b1001#4
  | .unrA _ => 0b1010#4
  | .unrB _ => 0b1011#4
  | .unrC _ => 0b1100#4
  | .unrD _ => 0b1101#4
  | .unrE _ => 0b1110#4
  | .unrF _ => 0b1111#4

/-- The operand an instruction is encoded with (R53). -/
def Instr.operand : Instr → Nibble
  | .nop n | .lda n | .add n | .sub n | .sto n | .out n | .jmp n | .hlt n | .cmp n
  | .unr9 n | .unrA n | .unrB n | .unrC n | .unrD n | .unrE n | .unrF n => n

/-- `encode(opcode, operand) = {opcode, operand}`: the opcode in the more significant bits (R52, R8). -/
def encodeFields (opcode operand : Nibble) : Byte := opcode ++ operand

/-- The one byte of an instruction (R50, R52). -/
def encodeByte (i : Instr) : Byte := encodeFields i.opcode i.operand

/-- The bytes of an instruction (R50: exactly one). -/
def encode (i : Instr) : List Byte := [encodeByte i]

/-- An instruction's bits as the opcode table numbers them, laid out as the cells hold them: byte k holds bits 8k+7 to 8k,
and an instruction given no bits is the zero byte. -/
def tableBytes (nbits w : Nat) : List Byte :=
  (List.range (max 1 ((nbits + 7) / Config.cellBits))).map
    fun k => BitVec.ofNat 8 (w % 2 ^ nbits / 2 ^ (Config.cellBits * k))

/-- The instruction the decoder reads from bits numbered as spec/opcode_table.json numbers them; none if bytes are left
over, since every instruction is one byte (R50). -/
def decodeTableWord (nbits w : Nat) : Option Instr :=
  match decode (tableBytes nbits w) with
  | .ok (i, []) => some i
  | .ok (_, _ :: _) => none
  | .error _ => none

end Sys2Proof
end

