-- ==== Sys2Proof/Machine/State.lean ====
section
/-! DEFINITION. The machine's state as plain data (spec/10_state.md R10), its reset value (R25), and the reasons a step or
a host move can stop. -/

namespace Sys2Proof.Machine

/-- An event a cycle emits (spec/40_cycle.md R74). -/
inductive Event where
  /-- `Out(v)`: a value on the output channel (spec/50_interfaces.md R115). -/
  | out (value : Byte)
  /-- `Diag(op)`: an unrecognized opcode on the diagnostic channel (R117). -/
  | diag (opcode : Nibble)
  deriving DecidableEq, Repr

/-- The memory array as its listed cells: address and content, addresses rising, no cell listed that holds what an
unlisted one reads as. `Memory.wf` (Machine/Ops.lean) says so. -/
abbrev Memory := List Host.Cell

/-- The state: the five elements of R10, and the record of the events emitted so far, which is the model's own (R27: "A
model may record events in a trace, but no rule of the machine reads the trace"; log 1). -/
structure State where
  /-- `MEM[0..15]`, 8 bits each: program and data together (R11). -/
  mem : Memory
  /-- `ACC`, 8 bits (R12). -/
  acc : Byte
  /-- `PC`, 4 bits: between cycles the address of the next instruction (R15, R16). -/
  pc : Addr
  /-- `IR`, 8 bits: the byte fetched last (R18). -/
  ir : Byte
  /-- `HALT`, 1 bit (R20). -/
  halt : Bool
  /-- The events emitted so far, oldest first: not state of the block (R27). Log 1. -/
  trace : List Event
  deriving DecidableEq, Repr

/-- The machine after `Reset` and before any `Load`: memory, ACC, PC, IR and HALT all zero (R25, R141); no event emitted
(log 1). -/
def State.reset : State where
  mem := []
  acc := 0x00#8
  pc := 0#4
  ir := 0x00#8
  halt := false
  trace := []

/-- The faults of the machine: there are none. "The block raises no synchronous exception" (spec/60_exceptions.md R126);
no address is invalid and no encoding is illegal (R31, R58). -/
inductive Fault where
  deriving DecidableEq, Repr

/-- What the model refuses. No step refuses (spec/40_cycle.md R75); apart from the first, these are answers at the block's
boundary, to a host move or a host input, never to an instruction. -/
inductive Refusal where
  /-- Raised only by an arm of `exec` whose instruction has no meaning yet; no arm is such. Safe: the run stops. -/
  | notModelled (mnemonic : String)
  /-- Raised by the Loader's side of the boundary for an image of more than 16 cells: no launch exists for it
  (spec/60_exceptions.md R127, spec/70_reset_and_hazards.md R144, 92_eei_decisions.md D11). Safe: nothing runs. -/
  | loadOverflow
  /-- Raised by the text Loader for 129 to 135 image bits, which the spec leaves open and asks to refuse
  (`LOADER_PARTIAL_17TH`, 92_eei_decisions.md D19). Safe: nothing runs. Log 12. -/
  | partialSeventeenthCell
  /-- Raised by the boundary for a move the host is assumed never to make: a tick or a load before Reset, a second load, a
  load after the first tick (spec/50_interfaces.md R120). Safe: the spec says nothing of such a run. Log 9. -/
  | hostMoveExcluded
  /-- Raised by the pin-level reading for pins asserted together whose joint effect R124 does not state. Safe: the edge
  has no successor. Log 14. -/
  | pinsNotStated
  deriving DecidableEq, Repr

end Sys2Proof.Machine
end

