-- ==== Sys2Proof/Machine/Ops.lean ====
section
/-! DEFINITION. The named operations over memory and registers: the memory's contract (spec/20_memory.md R31, R41), the
writes of the state's elements, the fetch (spec/40_cycle.md R67) and the PC's sequential update (R70). The machine takes
no exception and returns from none (spec/60_exceptions.md R126, R130, R131), so there is no such operation. -/

namespace Sys2Proof.Machine

/-- What a cell that is not listed holds: 0x00, as all cells do after reset (spec/10_state.md R25, spec/20_memory.md R42). -/
def Memory.unlisted : Byte := 0x00#8

/-- The content listed for an address, or what an unlisted cell holds. -/
def Memory.lookup : Memory → Nat → Byte
  | [], _ => Memory.unlisted
  | (k, v) :: rest, n => if k = n then v else Memory.lookup rest n

/-- `Memory.read(address)`: total on 4-bit addresses (R31). -/
def Memory.read (m : Memory) (a : Addr) : Byte := Memory.lookup m a.toNat

/-- The memory without any entry for an address. -/
def Memory.erase (m : Memory) (n : Nat) : Memory := m.filter fun c => c.1 != n

/-- The memory with an entry put before the first one of a higher address. -/
def Memory.insert (n : Nat) (v : Byte) : Memory → Memory
  | [] => [(n, v)]
  | (k, w) :: rest => if n < k then (n, v) :: (k, w) :: rest else (k, w) :: Memory.insert n v rest

/-- `Memory.write(address, value)`: that cell takes the value and no other cell changes (R31). Writing what an unlisted
cell holds takes the entry away, so that equal memories are equal lists. -/
def Memory.write (m : Memory) (a : Addr) (v : Byte) : Memory :=
  if v = Memory.unlisted then Memory.erase m a.toNat
  else Memory.insert a.toNat v (Memory.erase m a.toNat)

/-- Writes bytes to the cells from `i` upward. -/
def Memory.loadFrom : Nat → List Byte → Memory → Memory
  | _, [], m => m
  | i, b :: rest, m => Memory.loadFrom (i + 1) rest (Memory.write m (BitVec.ofNat 4 i) b)

/-- `load(bytes)`: cells 0 to n-1 take the bytes, the others keep what they hold (R41). For at most 16 bytes: a longer
image never gets here (`hostMove`). -/
def Memory.load (m : Memory) (image : List Byte) : Memory := Memory.loadFrom 0 image m

/-- The canonical form: addresses strictly rising, all of them in the address space, no listed content equal to an
unlisted cell's. -/
abbrev Memory.wf (m : Memory) : Prop :=
  m.Pairwise (fun x y => x.1 < y.1) ∧ ∀ c ∈ m, c.1 < Config.memCells ∧ c.2 ≠ Memory.unlisted

/-- `MemRead(a, 1)` (spec/00_scope.md R9): no side effect, no failure. -/
def State.memRead (s : State) (a : Addr) : Byte := Memory.read s.mem a

/-- `MemWrite(a, 1, v)` (R9). -/
def State.memWrite (s : State) (a : Addr) (v : Byte) : State := { s with mem := Memory.write s.mem a v }

/-- `ACC <- v` (R9). -/
def State.setAcc (s : State) (v : Byte) : State := { s with acc := v }

/-- `PC <- target` (R9). -/
def State.setPc (s : State) (target : Addr) : State := { s with pc := target }

/-- `IR <- byte` (R67). -/
def State.setIr (s : State) (byte : Byte) : State := { s with ir := byte }

/-- `HALT <- 1` (spec/46_halt.md R107): nothing but reset clears it (spec/10_state.md R20). -/
def State.setHalt (s : State) : State := { s with halt := true }

/-- `emit e`: one more event, after all earlier ones (R9, R74). -/
def State.emit (s : State) (e : Event) : State := { s with trace := s.trace ++ [e] }

/-- `x & 0xF` of a natural number: its residue modulo 16 (R8). -/
def maskNat (x : Nat) : Nibble := BitVec.ofNat 4 (x % 16)

/-- `x & 0xF` of an integer: its residue modulo 16 in 0..15, also for a negative one (R8). -/
def maskInt (x : Int) : Nibble := BitVec.ofNat 4 (x % 16).toNat

/-- `zext_8(v)` (R8). -/
def zext8 (v : Nibble) : Byte := v.setWidth 8

/-- `(PC + n) & 0xF`: the PC is masked to 4 bits on every write, so it wraps from 15 to 0 (spec/10_state.md R15, R17). -/
def pcPlus (pc : Addr) (n : Nat) : Addr := maskNat (pc.toNat + n)

/-- `PC <- (PC + 1) & 0xF`: the sequential PC update (R70). -/
def State.advance (s : State) : State := s.setPc (pcPlus s.pc 1)

/-- The byte a cycle fetches: the cell at PC, whatever it holds (R67). -/
def State.fetch (s : State) : Byte := s.memRead s.pc

/-- The state after the fetch: IR holds the fetched byte, nothing else has changed (R67). -/
def State.fetched (s : State) : State := s.setIr s.fetch

end Sys2Proof.Machine
end

