-- ==== Sys2Proof/Machine/Operands.lean ====
section
/-! DEFINITION. The operand forms (spec/30_encoding.md R53, R54): the 4-bit field as a data address to read, as a data
address to write, and as a jump target. The ignored form (NOP, OUT, HLT and the unrecognized opcodes) has no operation: no
meaning takes the field. There is no immediate data (90_conflicts.md C5). -/

namespace Sys2Proof.Machine

/-- The effective address of a data access: the operand field as it stands, with no arithmetic (spec/20_memory.md R32). -/
def effectiveAddress (operand : Nibble) : Addr := operand

/-- `m := MemRead(operand, 1)`: the datum of LDA, ADD, SUB and CMP, a whole cell (R33). -/
def State.dataRead (s : State) (operand : Nibble) : Byte := s.memRead (effectiveAddress operand)

/-- `MemWrite(operand, 1, v)`: the store of STO, a whole cell (R33). -/
def State.dataWrite (s : State) (operand : Nibble) (v : Byte) : State := s.memWrite (effectiveAddress operand) v

/-- JMP's target: the operand field as it stands (R54). -/
def jumpTarget (operand : Nibble) : Addr := operand

end Sys2Proof.Machine
end

