-- ==== Sys2Proof/Machine/Flags.lean ====
section
/-! DEFINITION. The arithmetic results and the one test. The machine has no condition codes: "wraparound, no overflow flag"
(spec/10_state.md R21), so nothing here is stored but the result itself. -/

namespace Sys2Proof.Machine

/-- ADD's result: `zext_8((ACC + m) & 0xF)`, the sum formed without loss and then masked (spec/43_arithmetic.md R90). -/
def addResult (acc m : Byte) : Byte := zext8 (maskNat (acc.toNat + m.toNat))

/-- SUB's result: `zext_8((ACC - m) & 0xF)`, the difference an integer in -255..255 before the mask (R91). -/
def subResult (acc m : Byte) : Byte := zext8 (maskInt ((acc.toNat : Int) - (m.toNat : Int)))

/-- CMP's test: all 8 bits equal (spec/45_control_transfer.md R101, 92_eei_decisions.md D2). Its outcome is stored
nowhere (R21). -/
def cmpEqual (acc m : Byte) : Bool := acc == m

end Sys2Proof.Machine
end

