-- ==== Sys2Proof/Machine/Arithmetic.lean ====
section
/-! DEFINITION. ADD and SUB (spec/43_arithmetic.md R90, R91), modulo 16, no flags (R92). -/

namespace Sys2Proof.Machine

/-- ADD (R90): `ACC <- zext_8((ACC + m) & 0xF)`. -/
def execAdd (address : Addr) (s : State) : Host.Outcome State Fault Refusal :=
  .next (s.setAcc (addResult s.acc (s.dataRead address))).advance

/-- SUB (R91): `ACC <- zext_8((ACC - m) & 0xF)`, ACC minus memory. -/
def execSub (address : Addr) (s : State) : Host.Outcome State Fault Refusal :=
  .next (s.setAcc (subResult s.acc (s.dataRead address))).advance

end Sys2Proof.Machine
end

