-- ==== Sys2Proof/Machine/Halt.lean ====
section
/-! DEFINITION. HLT (spec/46_halt.md R107). The operand is ignored (R57). -/

namespace Sys2Proof.Machine

/-- HLT (R107): `HALT <- 1`; the PC is not written. -/
def execHlt (s : State) : Host.Outcome State Fault Refusal := .next s.setHalt

end Sys2Proof.Machine
end

