-- ==== Sys2Proof/Machine/LoadStore.lean ====
section
/-! DEFINITION. LDA and STO (spec/42_load_store.md R85, R86). Both move whole cells: the spec's decisions D1 and D3 (log 3). -/

namespace Sys2Proof.Machine

/-- LDA (R85): ACC takes all 8 bits of the addressed cell. -/
def execLda (address : Addr) (s : State) : Host.Outcome State Fault Refusal :=
  .next (s.setAcc (s.dataRead address)).advance

/-- STO (R86): the addressed cell takes all 8 bits of ACC. -/
def execSto (address : Addr) (s : State) : Host.Outcome State Fault Refusal :=
  .next (s.dataWrite address s.acc).advance

end Sys2Proof.Machine
end

