-- ==== Sys2Proof/Machine/Nop.lean ====
section
/-! DEFINITION. NOP and the seven unrecognized opcodes (spec/41_nop.md R80, R81). The operand is ignored (R57). -/

namespace Sys2Proof.Machine

/-- NOP (R80): only the PC advances. -/
def execNop (s : State) : Host.Outcome State Fault Refusal := .next s.advance

/-- The common rule of the unrecognized opcodes (R81): the diagnostic event, and the PC advances. The event is the spec's
own decision D6 (log 2). -/
def unrecognized (opcode : Nibble) (s : State) : Host.Outcome State Fault Refusal :=
  .next (s.emit (.diag opcode)).advance

/-- UNR9, opcode 1001 (R81). -/
def execUnr9 (s : State) : Host.Outcome State Fault Refusal := unrecognized 0b1001#4 s

/-- UNRA, opcode 1010 (R81). -/
def execUnrA (s : State) : Host.Outcome State Fault Refusal := unrecognized 0b1010#4 s

/-- UNRB, opcode 1011 (R81). -/
def execUnrB (s : State) : Host.Outcome State Fault Refusal := unrecognized 0b1011#4 s

/-- UNRC, opcode 1100 (R81). -/
def execUnrC (s : State) : Host.Outcome State Fault Refusal := unrecognized 0b1100#4 s

/-- UNRD, opcode 1101 (R81). -/
def execUnrD (s : State) : Host.Outcome State Fault Refusal := unrecognized 0b1101#4 s

/-- UNRE, opcode 1110 (R81). -/
def execUnrE (s : State) : Host.Outcome State Fault Refusal := unrecognized 0b1110#4 s

/-- UNRF, opcode 1111 (R81). -/
def execUnrF (s : State) : Host.Outcome State Fault Refusal := unrecognized 0b1111#4 s

end Sys2Proof.Machine
end

