-- ==== Sys2Proof/Machine/Output.lean ====
section
/-! DEFINITION. OUT (spec/44_output.md R97). The operand is ignored (R57). -/

namespace Sys2Proof.Machine

/-- OUT (R97): emits all 8 bits of ACC (the spec's decision D3, log 3); it cannot be refused or stalled. -/
def execOut (s : State) : Host.Outcome State Fault Refusal := .next (s.emit (.out s.acc)).advance

end Sys2Proof.Machine
end

