-- ==== Sys2Proof/Machine/Transfer.lean ====
section
/-! DEFINITION. JMP and CMP (spec/45_control_transfer.md R100, R101), the only non-sequential control transfers (R102). -/

namespace Sys2Proof.Machine

/-- JMP (R100): the PC takes the operand and is not incremented. -/
def execJmp (address : Addr) (s : State) : Host.Outcome State Fault Refusal := .next (s.setPc (jumpTarget address))

/-- CMP (R101): the PC advances by 2 where ACC equals the addressed cell over all 8 bits (D2, log 3), else by 1. -/
def execCmp (address : Addr) (s : State) : Host.Outcome State Fault Refusal :=
  if cmpEqual s.acc (s.dataRead address) then .next (s.setPc (pcPlus s.pc 2)) else .next s.advance

end Sys2Proof.Machine
end

