-- ==== Sys2Proof/Machine/Dispatch.lean ====
section
/-! DEFINITION. The executor's dispatch (spec/40_cycle.md R69): one arm per instruction. -/

namespace Sys2Proof.Machine

/-- Applies one decoded instruction to the state the fetch has left (R69). -/
def exec (i : Instr) (s : State) : Host.Outcome State Fault Refusal :=
  match i with
  | .nop _ => Sys2Proof.Machine.execNop s
  | .lda address => Sys2Proof.Machine.execLda address s
  | .add address => Sys2Proof.Machine.execAdd address s
  | .sub address => Sys2Proof.Machine.execSub address s
  | .sto address => Sys2Proof.Machine.execSto address s
  | .out _ => Sys2Proof.Machine.execOut s
  | .jmp address => Sys2Proof.Machine.execJmp address s
  | .hlt _ => Sys2Proof.Machine.execHlt s
  | .cmp address => Sys2Proof.Machine.execCmp address s
  | .unr9 _ => Sys2Proof.Machine.execUnr9 s
  | .unrA _ => Sys2Proof.Machine.execUnrA s
  | .unrB _ => Sys2Proof.Machine.execUnrB s
  | .unrC _ => Sys2Proof.Machine.execUnrC s
  | .unrD _ => Sys2Proof.Machine.execUnrD s
  | .unrE _ => Sys2Proof.Machine.execUnrE s
  | .unrF _ => Sys2Proof.Machine.execUnrF s

end Sys2Proof.Machine
end

