-- ==== Sys2Proof/Machine/Step.lean ====
section
/-! DEFINITION. The step: one tick's cycle, fetch, decode and execute (spec/40_cycle.md R65), gated by HALT (R66). -/

namespace Sys2Proof.Machine

/-- One cycle without the halt gate (R65): fetch into IR (R67), decode the fetched byte (R68), execute (R69). -/
def cycle (s : State) : Host.Outcome State Fault Refusal := exec (decodeByte s.fetch) s.fetched

/-- `Step` (R65): in the halted state nothing changes (R66, 92_eei_decisions.md D5, log 4), else one cycle. -/
def step (s : State) : Host.Outcome State Fault Refusal := if s.halt then .next s else cycle s

/-- The state with an instruction's byte stored at PC and HALT cleared, so that the next step runs it: what the host's
`Reset` and `Load` do for a program (log 15). -/
def State.withFetchWord (s : State) (nbits w : Nat) : State :=
  { s with mem := Memory.write s.mem s.pc (BitVec.ofNat 8 (w % 2 ^ nbits)), halt := false }

end Sys2Proof.Machine
end

