-- ==== Sys2Proof/Machine/Control.lean ====
section
/-! DEFINITION. The control decode table and the datapath (spec/40_cycle.md R71, R72): the cycle a second time, as write
enables and 4-bit arithmetic units. It adds no behaviour; that it is the same machine as `step` is a statement of its own,
and `step` does not call it. -/

namespace Sys2Proof.Machine

/-- Where ACC's next value comes from (R71). -/
inductive AccSource where
  /-- The cell read, 8 bits. -/
  | memoryData
  /-- `zext_8` of the ALU's sum. -/
  | aluSum
  /-- `zext_8` of the ALU's difference. -/
  | aluDifference
  deriving DecidableEq, Repr

/-- Where the PC's next value comes from (R71). -/
inductive NextPc where
  /-- PC+1. -/
  | plusOne
  /-- The operand. -/
  | operand
  /-- PC+2 if the comparator says equal, else PC+1. -/
  | skipIfEqual
  /-- The PC is not written. -/
  | hold
  deriving DecidableEq, Repr

/-- One row of the control table (R71), with `ir_we`. -/
structure Control where
  /-- Whether `MEM[operand]` is read. -/
  dataRead : Bool
  /-- `acc_we` and its source: none where the table has 0 and "–". -/
  accWrite : Option AccSource
  /-- `mem_we`: `MEM[operand] <- ACC`. -/
  memWe : Bool
  /-- `out_valid`. -/
  outValid : Bool
  /-- `diag_valid`. -/
  diagValid : Bool
  /-- `halt_set`. -/
  haltSet : Bool
  /-- `ir_we`. -/
  irWe : Bool
  /-- The next PC. -/
  nextPc : NextPc
  deriving DecidableEq, Repr

/-- The signals of an executed cycle that only advances the PC: the table's first row (R71). -/
def Control.sequential : Control where
  dataRead := false
  accWrite := none
  memWe := false
  outValid := false
  diagValid := false
  haltSet := false
  irWe := true
  nextPc := .plusOne

/-- The signals when `HALT = 1`: every enable is forced to 0 (R71, R66). -/
def Control.halted : Control := { Control.sequential with irWe := false, nextPc := .hold }

/-- The control table (R71). The last arm is the row of opcodes 0x9 to 0xF. -/
def Control.ofOpcode (opcode : Nibble) : Control :=
  match opcode with
  | 0x0#4 => Control.sequential
  | 0x1#4 => { Control.sequential with dataRead := true, accWrite := some .memoryData }
  | 0x2#4 => { Control.sequential with dataRead := true, accWrite := some .aluSum }
  | 0x3#4 => { Control.sequential with dataRead := true, accWrite := some .aluDifference }
  | 0x4#4 => { Control.sequential with memWe := true }
  | 0x5#4 => { Control.sequential with outValid := true }
  | 0x6#4 => { Control.sequential with nextPc := .operand }
  | 0x7#4 => { Control.sequential with haltSet := true, nextPc := .hold }
  | 0x8#4 => { Control.sequential with dataRead := true, nextPc := .skipIfEqual }
  | _ => { Control.sequential with diagValid := true }

/-- How many of the five enables `acc_we`, `mem_we`, `out_valid`, `diag_valid` and `halt_set` are 1. -/
def Control.enables (c : Control) : Nat :=
  c.accWrite.isSome.toNat + c.memWe.toNat + c.outValid.toNat + c.diagValid.toNat + c.haltSet.toNat

/-- The signals in a state: the table's row for the byte at PC, all off when halted (R71). -/
def State.control (s : State) : Control :=
  if s.halt then Control.halted else Control.ofOpcode (opcodeOf (Memory.read s.mem s.pc))

/-- The low nibble of an ALU input (R72: `a = ACC[3:0]`, `b = m[3:0]`). -/
def lowNibble (v : Byte) : Nibble := v.extractLsb' 0 4

/-- What the data read delivers: the addressed cell where the row reads one. The bus of a row that reads none feeds
nothing (`State.nextAcc` and `State.comparator` are the only readers). -/
def State.readBus (s : State) : Option Byte :=
  if s.control.dataRead then some (Memory.read s.mem (operandOf (Memory.read s.mem s.pc))) else none

/-- The 8-bit comparator: all eight bit positions of ACC and the read bus equal (R72). -/
def State.comparator (s : State) : Bool := s.readBus == some s.acc

/-- ACC after the cycle: the 4-bit adder/subtractor's output widened, the cell read, or ACC as it was (R72). -/
def State.nextAcc (s : State) : Byte :=
  match s.control.accWrite, s.readBus with
  | some .memoryData, some m => m
  | some .aluSum, some m => (lowNibble s.acc + lowNibble m).setWidth 8
  | some .aluDifference, some m => (lowNibble s.acc - lowNibble m).setWidth 8
  | some _, none => s.acc
  | none, _ => s.acc

/-- The PC after the cycle: the 4-bit incrementer's outputs, the operand, or PC as it was (R71, R72). -/
def State.nextPc (s : State) : Addr :=
  match s.control.nextPc with
  | .plusOne => s.pc + 1#4
  | .operand => operandOf (Memory.read s.mem s.pc)
  | .skipIfEqual => if s.comparator then s.pc + 2#4 else s.pc + 1#4
  | .hold => s.pc

/-- The event of the cycle, if any: `out_valid` with ACC, `diag_valid` with the opcode (R71, R74). -/
def State.cycleEvent (s : State) : Option Event :=
  if s.control.outValid then some (.out s.acc)
  else if s.control.diagValid then some (.diag (opcodeOf (Memory.read s.mem s.pc)))
  else none

/-- One tick of the datapath: every enabled write of the control row, together (R71, R72). -/
def datapathTick (s : State) : State where
  mem := if s.control.memWe then Memory.write s.mem (operandOf (Memory.read s.mem s.pc)) s.acc else s.mem
  acc := s.nextAcc
  pc := s.nextPc
  ir := if s.control.irWe then Memory.read s.mem s.pc else s.ir
  halt := s.halt || s.control.haltSet
  trace := s.trace ++ s.cycleEvent.toList

end Sys2Proof.Machine
end

