-- ==== Sys2Proof/Machine/Interface.lean ====
section
/-! DEFINITION. The block's boundary (spec/50_interfaces.md R111 to R120): what the host may do, `Reset`, `Load` and
`Tick`, in the order R120 and spec/70_reset_and_hazards.md R141 give, and what it may see, the snapshot and `Halted`. -/

namespace Sys2Proof.Machine

/-- The 16 addresses, rising. -/
def allAddrs : List Addr := (List.range Config.memCells).map (BitVec.ofNat 4)

/-- What the host may read between cycles (R116, 92_eei_decisions.md D18, log 5). -/
structure Snapshot where
  /-- The 16 cells in address order. -/
  cells : List Byte
  /-- ACC. -/
  acc : Byte
  /-- `zext_8(PC)`. -/
  pc : Byte
  /-- IR. -/
  ir : Byte
  /-- The address of the highlighted cell, the one PC addresses. -/
  highlighted : Addr
  /-- HALT (R119). -/
  halted : Bool
  deriving DecidableEq, Repr

/-- The snapshot of a state (R116). Reading it changes nothing: it is a function of the state. -/
def State.snapshot (s : State) : Snapshot where
  cells := allAddrs.map s.memRead
  acc := s.acc
  pc := zext8 s.pc
  ir := s.ir
  highlighted := s.pc
  halted := s.halt

/-- The values on the output channel so far, oldest first (R115). -/
def State.outValues (s : State) : List Byte :=
  s.trace.filterMap fun e => match e with
    | .out v => some v
    | .diag _ => none

/-- The opcodes on the diagnostic channel so far, oldest first (R117). -/
def State.diagOpcodes (s : State) : List Nibble :=
  s.trace.filterMap fun e => match e with
    | .out _ => none
    | .diag op => some op

/-- The launch state of a run: the image padded with zeros, every register and HALT at its reset value (R141). -/
def launch (image : List Byte) : State := { State.reset with mem := Memory.load State.reset.mem image }

/-- The inputs of the block (R111). -/
inductive HostMove where
  /-- `Reset` (R112). -/
  | reset
  /-- `Load(b[0..n-1])` (R113). -/
  | load (image : List Byte)
  /-- `Tick` (R114). -/
  | tick
  deriving DecidableEq, Repr

/-- Where a boot stands (R120, R141). The user's stop is no move: it is the absence of further ticks (R118). -/
inductive Session where
  /-- Before the first `Reset`: the block's state does not exist yet (93_implementation_defined.md I13). -/
  | unbooted
  /-- `Reset` done, no `Load` and no `Tick` yet. -/
  | booted (s : State)
  /-- `Load` done, no `Tick` yet. -/
  | loaded (s : State)
  /-- At least one `Tick` done. -/
  | running (s : State)
  deriving DecidableEq, Repr

/-- The block's state in a session, if it has one. -/
def Session.state? : Session → Option State
  | .unbooted => none
  | .booted s => some s
  | .loaded s => some s
  | .running s => some s

/-- `Halted` (R119): HALT, shown to the Clock Driver. Before the first `Reset` there is no HALT to show and
93_implementation_defined.md I13 allows any value: a free value (DESIGN CHOICE, log 23). -/
def Session.halted (σ : Session) : Bool :=
  match σ.state? with
  | none => Config.haltedBeforeReset
  | some s => s.halt

/-- One `Tick` in a state: one step (R114). -/
def tickOnce (s : State) : Host.Outcome Session Fault Refusal :=
  match step s with
  | .next t => .next (.running t)
  | .fault r => .fault r
  | .refused r => .refused r

/-- One host move (R112 to R114). `Reset` at any time (D10); `Load` at most once, after `Reset` and before the first
`Tick`, and of at most 16 bytes (R41, R144); `Tick` at any time after `Reset`. A move the host is assumed never to make is
refused (R120). Log 6, 8, 9. -/
def hostMove (σ : Session) : HostMove → Host.Outcome Session Fault Refusal
  | .reset => .next (.booted State.reset)
  | .load image =>
    match σ with
    | .booted s =>
      if imageFits image then .next (.loaded { s with mem := Memory.load s.mem image }) else .refused .loadOverflow
    | .unbooted | .loaded _ | .running _ => .refused .hostMoveExcluded
  | .tick =>
    match σ with
    | .unbooted => .refused .hostMoveExcluded
    | .booted s => tickOnce s
    | .loaded s => tickOnce s
    | .running s => tickOnce s

/-- A schedule of host moves (`TICK_SCHEDULE`, D22: any), stopping at the first move that is refused. -/
def hostMoves (σ : Session) : List HostMove → Host.Outcome Session Fault Refusal
  | [] => .next σ
  | m :: rest =>
    match hostMove σ m with
    | .next σ' => hostMoves σ' rest
    | .fault r => .fault r
    | .refused r => .refused r

end Sys2Proof.Machine
end

