-- ==== Sys2Proof/Machine/HostFormats.lean ====
section
/-! DEFINITION. The host-side formats the spec transcribes (spec/50_interfaces.md R121 to R123): the Loader's text image,
the default fallback program, the output channel's line. They are outside the block: no step reads them. -/

namespace Sys2Proof.Machine

/-- The image bits of a text: its `0` and `1` characters in order, all others skipped (R121, I14). -/
def imageBits (text : List Char) : List Bool :=
  text.filterMap fun c => if c = '0' then some false else if c = '1' then some true else none

/-- The cells of a bit list, 8 bits each, most significant bit first; a trailing partial byte is dropped (R121). -/
def imageCells : List Bool → List Byte
  | b7 :: b6 :: b5 :: b4 :: b3 :: b2 :: b1 :: b0 :: rest =>
    BitVec.ofBoolListBE [b7, b6, b5, b4, b3, b2, b1, b0] :: imageCells rest
  | _ => []

/-- The image a text holds (R121). More than 16 cells is LoadOverflow; 16 cells and a partial 17th is refused, the spec
leaving it open (`LOADER_PARTIAL_17TH`, D19; log 12). -/
def parseImage (text : List Char) : Host.Outcome (List Byte) Fault Refusal :=
  let bits := imageBits text
  if bits.length ≤ Config.memCells * Config.cellBits then .next (imageCells bits)
  else if bits.length < (Config.memCells + 1) * Config.cellBits then .refused .partialSeventeenthCell
  else .refused .loadOverflow

/-- The default fallback program's first ten cells (R122; the operand bits of OUT and HLT are D13, log 10). -/
def defaultHead : List Byte :=
  [0x0F#8, 0x01#8, 0x00#8, 0x50#8, 0x42#8, 0x21#8, 0x80#8, 0x63#8, 0x42#8, 0x70#8]

/-- The default fallback program: its last six cells are free (`DEFAULT_TAIL`, D21; log 10). -/
def defaultImage : List Byte := defaultHead ++ (List.range 6).map Config.defaultTail

/-- What the Loader loads from a source, if there is one (R121, R122). A source with no bits counts as absent or not as
the host has it (N18; log 13). -/
def loaderImage : Option (List Char) → Host.Outcome (List Byte) Fault Refusal
  | none => .next defaultImage
  | some text =>
    if imageBits text = [] then .next (if Config.emptySourceIsAbsent then defaultImage else [])
    else parseImage text

/-- A hexadecimal digit. -/
def hexDigit (upper : Bool) (n : Nibble) : Char :=
  if n.toNat < 10 then Char.ofNat (48 + n.toNat)
  else Char.ofNat ((if upper then 55 else 87) + n.toNat)

/-- A byte in hexadecimal, with or without a leading zero. -/
def hexText (upper padded : Bool) (v : Byte) : String :=
  if padded || decide (16 ≤ v.toNat) then
    String.ofList [hexDigit upper (opcodeOf v), hexDigit upper (operandOf v)]
  else String.ofList [hexDigit upper (operandOf v)]

/-- The output channel's line for a value (R123); digit case, padding and line end are free (`OUT_TEXT_STYLE`, D7;
log 11). -/
def outputLine (v : Byte) : String :=
  "[OUT] 0x" ++ hexText Config.outTextUpperCase Config.outTextPadded v ++ Config.outTextLineEnd

end Sys2Proof.Machine
end

