-- ==== Sys2Proof/Machine/Pins.lean ====
section
/-! DEFINITION. The signal-level reading of the block (spec/50_interfaces.md R124, 92_eei_decisions.md D8): one way to
realise its events, the spec's own. No other definition depends on it. -/

namespace Sys2Proof.Machine

/-- The input pins at a clock edge (R124). -/
structure PinsIn where
  /-- Synchronous reset. -/
  rst : Bool
  /-- Cycle enable. -/
  tick : Bool
  /-- Writes one cell, between `rst` and the first `tick`. -/
  loadWe : Bool
  /-- `load_addr[3:0]`. -/
  loadAddr : Addr
  /-- `load_data[7:0]`. -/
  loadData : Byte
  deriving DecidableEq, Repr

/-- The output pins (R124). -/
structure PinsOut where
  /-- HALT. -/
  halted : Bool
  /-- 1 in the cycle of an OUT. -/
  outValid : Bool
  /-- ACC. -/
  outData : Byte
  /-- 1 in the cycle of an unrecognized opcode. -/
  diagValid : Bool
  /-- The opcode, while `diagValid` is 1; otherwise not stated (log 24). -/
  diagOpcode : Nibble
  /-- The debug view's `pc[3:0]`. -/
  pc : Addr
  /-- The debug view's `acc[7:0]`. -/
  acc : Byte
  /-- The debug view's `ir[7:0]`. -/
  ir : Byte
  /-- The debug view's 16 cells. -/
  mem : List Byte
  deriving DecidableEq, Repr

/-- No pin asserted. -/
def PinsIn.idle : PinsIn := { rst := false, tick := false, loadWe := false, loadAddr := 0#4, loadData := 0x00#8 }

end Sys2Proof.Machine

namespace Sys2Proof

/-- What `diag_opcode` shows while `diag_valid` is 0, by the block's state and its inputs. R124 does not say: a free value,
DESIGN CHOICE. Log 24. -/
opaque Config.idleDiagOpcode : Machine.State → Machine.PinsIn → Nibble

end Sys2Proof

namespace Sys2Proof.Machine

/-- The outputs in a state, under the inputs: the valid pulses come with an enabled cycle (R124, R71), and `diag_opcode` is
the opcode in the cycle of an unrecognized one and a free value elsewhere (log 24). -/
def State.pins (s : State) (p : PinsIn) : PinsOut where
  halted := s.halt
  outValid := p.tick && s.control.outValid
  outData := s.acc
  diagValid := p.tick && s.control.diagValid
  diagOpcode := if p.tick && s.control.diagValid then opcodeOf s.fetch else Config.idleDiagOpcode s p
  pc := s.pc
  acc := s.acc
  ir := s.ir
  mem := allAddrs.map s.memRead

/-- One clock edge (R124): `rst` resets, `tick` applies one whole step, `load_we` writes one cell, and with none of them
nothing changes. Two of them together: not stated (log 14). -/
def clockEdge (p : PinsIn) (s : State) : Host.Outcome State Fault Refusal :=
  match p.rst, p.tick, p.loadWe with
  | true, false, false => .next State.reset
  | false, true, false => step s
  | false, false, true => .next (s.memWrite p.loadAddr p.loadData)
  | false, false, false => .next s
  | true, true, _ => .refused .pinsNotStated
  | true, false, true => .refused .pinsNotStated
  | false, true, true => .refused .pinsNotStated

/-- Clock edges one after another, stopping at the first that has no successor. -/
def clockEdges : List PinsIn → State → Host.Outcome State Fault Refusal
  | [], s => .next s
  | p :: rest, s =>
    match clockEdge p s with
    | .next t => clockEdges rest t
    | .fault r => .fault r
    | .refused r => .refused r

/-- The edges that load bytes into the cells from `i` upward, in order (R124). -/
def loadEdges : Nat → List Byte → List PinsIn
  | _, [] => []
  | i, b :: rest =>
    { PinsIn.idle with loadWe := true, loadAddr := BitVec.ofNat 4 i, loadData := b } :: loadEdges (i + 1) rest

end Sys2Proof.Machine
end

