-- ==== Sys2Proof/Safety.lean ====
section
/-! DEFINITION. What counts as a safe run, in the terms the statements use: the invariant of the state, the invariant of a
session, and what an instruction leaves unchanged. -/

namespace Sys2Proof.Machine

/-- Memory is in its canonical form. -/
def State.MemoryCanonical (s : State) : Prop := Memory.wf s.mem

/-- A halted machine stands on the HLT that halted it: IR holds the byte PC addresses, and that byte is an HLT
(spec/40_cycle.md R76, spec/70_reset_and_hazards.md R149). -/
def State.HaltCoherent (s : State) : Prop :=
  s.halt = true → s.ir = s.memRead s.pc ∧ opcodeOf s.ir = 0b0111#4

/-- Every diagnostic event carries an unrecognized opcode, 9 to 15 (spec/50_interfaces.md R117). -/
def State.DiagUnrecognized (s : State) : Prop := ∀ op ∈ s.diagOpcodes, 9 ≤ op.toNat

/-- The invariant of the machine. -/
structure State.Inv (s : State) : Prop where
  /-- Memory is canonical. -/
  memory : s.MemoryCanonical
  /-- The halted state is the one an HLT left. -/
  halted : s.HaltCoherent
  /-- The diagnostic channel carries unrecognized opcodes only. -/
  diag : s.DiagUnrecognized

/-- The registers, HALT and the event record are at their reset values: what a boot leaves before the first tick (R141). -/
def State.RegistersReset (s : State) : Prop :=
  s.acc = 0x00#8 ∧ s.pc = 0#4 ∧ s.ir = 0x00#8 ∧ s.halt = false ∧ s.trace = []

/-- The invariant of a session (R141): after Reset the reset state, after Load canonical memory and reset registers, after
a tick the machine's invariant. -/
def Session.Inv : Session → Prop
  | .unbooted => True
  | .booted s => s = State.reset
  | .loaded s => s.MemoryCanonical ∧ s.RegistersReset
  | .running s => s.Inv

/-- Every cell reads the same in both states. -/
def SameMemory (s t : State) : Prop := ∀ a : Addr, t.memRead a = s.memRead a

/-- Every cell but one reads the same in both states. -/
def SameMemoryBut (a : Addr) (s t : State) : Prop := ∀ b : Addr, b ≠ a → t.memRead b = s.memRead b

/-- The two states show the host the same: the same cells, ACC, PC, IR and HALT. -/
def SameSnapshot (s t : State) : Prop := s.snapshot = t.snapshot

end Sys2Proof.Machine
end

