-- ==== Sys2Proof/Certificates/Slice0/Obligations.lean ====
section
/-! DEFINITION. The statements for the provers, from the numbered rules of spec/. Where a statement rests on a decision the
spec marks as its own (`[decision: ...]`, rows D<n> of 92_eei_decisions.md) or on an inference it marks `[derived: ...]`, its
docstring says so; log <n> is notes/assumptions/<n>.md. -/

open Sys2Proof Sys2Proof.Machine

/-! ### Encoding -/

/-- R51: `opcode = (byte >> 4) & 0xF`, `operand = byte & 0xF`, for every byte, with no failure mode; the instruction is a
function of the two. -/
def Obligations.DecodeSplitsEveryByte : Prop :=
  ∀ byte : Byte,
    (opcodeOf byte).toNat = (byte.toNat >>> 4) &&& 0xF ∧ (operandOf byte).toNat = byte.toNat &&& 0xF ∧
    ∀ rest : List Byte, decode (byte :: rest) = .ok (instrOf (opcodeOf byte) (operandOf byte), rest)

/-- R52: `encode(opcode, operand) = (opcode << 4) | operand`, and encoding and decoding undo each other, on the two fields,
on all instructions with every operand, and on all 256 bytes. -/
def Obligations.DecodeAndEncodeAgree : Prop :=
  (∀ op n : Nibble, (encodeFields op n).toNat = (op.toNat <<< 4) ||| n.toNat ∧
    opcodeOf (encodeFields op n) = op ∧ operandOf (encodeFields op n) = n) ∧
  (∀ byte : Byte, encodeFields (opcodeOf byte) (operandOf byte) = byte) ∧
  (∀ (i : Instr) (rest : List Byte), i.wellFormed = true → decode (encode i ++ rest) = .ok (i, rest)) ∧
  (∀ (byte : Byte) (rest : List Byte), ∃ i : Instr, decode (byte :: rest) = .ok (i, rest) ∧ encode i = [byte])

/-- Bytes written out from the opcode map (R55) and the listing of 95_test_vectors.md B1 decode to the instruction they
stand for, one per family. -/
def Obligations.WrittenOutWordsDecode : Prop :=
  decode [0b00001111#8] = .ok (.nop 15, []) ∧ decode [0b00011101#8] = .ok (.lda 13, []) ∧
  decode [0b00100001#8] = .ok (.add 1, []) ∧ decode [0b00111110#8] = .ok (.sub 14, []) ∧
  decode [0b01000010#8] = .ok (.sto 2, []) ∧ decode [0b01010000#8] = .ok (.out 0, []) ∧
  decode [0b01100011#8] = .ok (.jmp 3, []) ∧ decode [0b01110000#8] = .ok (.hlt 0, []) ∧
  decode [0b10001111#8] = .ok (.cmp 15, []) ∧ decode [0b10100101#8] = .ok (.unrA 5, [])

/-- R58: "every 8-bit value decodes into either a defined or a safely-ignored opcode": every byte is an instruction, and
executing it in any state answers a next state. -/
def Obligations.EveryByteExecutes : Prop :=
  ∀ (byte : Byte) (s : State), ∃ (i : Instr) (t : State), decode [byte] = .ok (i, []) ∧ exec i s = .next t

/-- R57: for NOP, OUT, HLT and the unrecognized opcodes all 16 operand values behave alike (IR, which the fetch has
written, is the same in both runs here), and 0x00 to 0x0F are sixteen encodings of NOP. -/
def Obligations.IgnoredOperandBitsDoNothing : Prop :=
  (∀ (op x y : Nibble) (s : State), op = 0x0#4 ∨ op = 0x5#4 ∨ op = 0x7#4 ∨ 9 ≤ op.toNat →
    exec (decodeByte (encodeFields op x)) s = exec (decodeByte (encodeFields op y)) s) ∧
  (∀ byte : Byte, byte.toNat ≤ 0x0F → ∃ n : Nibble, decodeByte byte = .nop n)

/-! ### One instruction each: its bytes, its effect, and what it leaves unchanged

`s` is the state the fetch has left: its `ir` is the fetched byte, its `pc` the instruction's own address. -/

/-- R80, with its corner case (c): over memory that reads all zero every cycle is such a NOP and leaves the memory so. -/
def Obligations.NopOnlyAdvancesPc : Prop :=
  (∀ n : Nibble, decodeByte (BitVec.ofNat 8 (0x00 + n.toNat)) = .nop n) ∧
  (∀ (n : Nibble) (s : State), ∃ t, exec (.nop n) s = .next t ∧ t.pc.toNat = (s.pc.toNat + 1) % 16 ∧
    t.acc = s.acc ∧ t.ir = s.ir ∧ t.halt = s.halt ∧ t.trace = s.trace ∧ SameMemory s t) ∧
  (∀ s : State, s.halt = false → (∀ a : Addr, s.memRead a = 0x00#8) → ∃ t, step s = .next t ∧
    t.pc.toNat = (s.pc.toNat + 1) % 16 ∧ t.acc = s.acc ∧ t.ir = 0x00#8 ∧ t.halt = false ∧ t.trace = s.trace ∧
    ∀ a : Addr, t.memRead a = 0x00#8)

/-- LDA (42_load_store.md, "## LDA"). That ACC takes the whole cell is the spec's decision D1 (log 3). -/
def Obligations.LdaLoadsTheWholeCell : Prop :=
  (∀ a : Addr, decodeByte (BitVec.ofNat 8 (0x10 + a.toNat)) = .lda a) ∧
  (∀ (a : Addr) (s : State), ∃ t, exec (.lda a) s = .next t ∧ t.acc = s.memRead a ∧
    t.pc.toNat = (s.pc.toNat + 1) % 16 ∧ t.ir = s.ir ∧ t.halt = s.halt ∧ t.trace = s.trace ∧ SameMemory s t)

/-- R90: `ACC <- zext_8((ACC + m) & 0xF)`, which is the 4-bit sum of the low nibbles. -/
def Obligations.AddIsTheSumModuloSixteen : Prop :=
  (∀ a : Addr, decodeByte (BitVec.ofNat 8 (0x20 + a.toNat)) = .add a) ∧
  (∀ (a : Addr) (s : State), ∃ t, exec (.add a) s = .next t ∧
    t.acc.toNat = (s.acc.toNat + (s.memRead a).toNat) % 16 ∧
    t.acc = (lowNibble s.acc + lowNibble (s.memRead a)).setWidth 8 ∧
    t.pc.toNat = (s.pc.toNat + 1) % 16 ∧ t.ir = s.ir ∧ t.halt = s.halt ∧ t.trace = s.trace ∧ SameMemory s t)

/-- R91: `ACC <- zext_8((ACC - m) & 0xF)`, an integer difference reduced modulo 16, which is the 4-bit difference of the
low nibbles. -/
def Obligations.SubIsTheDifferenceModuloSixteen : Prop :=
  (∀ a : Addr, decodeByte (BitVec.ofNat 8 (0x30 + a.toNat)) = .sub a) ∧
  (∀ (a : Addr) (s : State), ∃ t, exec (.sub a) s = .next t ∧
    (t.acc.toNat : Int) = ((s.acc.toNat : Int) - ((s.memRead a).toNat : Int)) % 16 ∧
    t.acc = (lowNibble s.acc - lowNibble (s.memRead a)).setWidth 8 ∧
    t.pc.toNat = (s.pc.toNat + 1) % 16 ∧ t.ir = s.ir ∧ t.halt = s.halt ∧ t.trace = s.trace ∧ SameMemory s t)

/-- STO (42_load_store.md, "## STO"): the address stored to is the operand itself, and every other cell reads as before.
That the cell takes all 8 bits of ACC is the spec's decision D3 (log 3). -/
def Obligations.StoStoresTheWholeAccumulator : Prop :=
  (∀ a : Addr, decodeByte (BitVec.ofNat 8 (0x40 + a.toNat)) = .sto a) ∧
  (∀ (a : Addr) (s : State), ∃ t, exec (.sto a) s = .next t ∧
    t.memRead (effectiveAddress a) = s.acc ∧ SameMemoryBut (effectiveAddress a) s t ∧ effectiveAddress a = a ∧
    t.pc.toNat = (s.pc.toNat + 1) % 16 ∧ t.acc = s.acc ∧ t.ir = s.ir ∧ t.halt = s.halt ∧ t.trace = s.trace)

/-- OUT (44_output.md, "## OUT"): one event, after all earlier ones. That it carries all 8 bits of ACC is the spec's
decision D3 (log 3); that events are recorded in `trace` is the model's (log 1). -/
def Obligations.OutEmitsTheAccumulator : Prop :=
  (∀ n : Nibble, decodeByte (BitVec.ofNat 8 (0x50 + n.toNat)) = .out n) ∧
  (∀ (n : Nibble) (s : State), ∃ t, exec (.out n) s = .next t ∧ t.trace = s.trace ++ [.out s.acc] ∧
    t.outValues = s.outValues ++ [s.acc] ∧ t.diagOpcodes = s.diagOpcodes ∧
    t.pc.toNat = (s.pc.toNat + 1) % 16 ∧ t.acc = s.acc ∧ t.ir = s.ir ∧ t.halt = s.halt ∧ SameMemory s t)

/-- R100: the PC is the operand, whatever it was before. -/
def Obligations.JmpSetsPcToTheOperand : Prop :=
  (∀ a : Addr, decodeByte (BitVec.ofNat 8 (0x60 + a.toNat)) = .jmp a) ∧
  (∀ (a : Addr) (s : State), ∃ t, exec (.jmp a) s = .next t ∧ t.pc = a ∧
    t.acc = s.acc ∧ t.ir = s.ir ∧ t.halt = s.halt ∧ t.trace = s.trace ∧ SameMemory s t)

/-- HLT (46_halt.md, "## HLT"): HALT is 1, the PC stays, and every later tick changes nothing. The last clause rests on the
spec's decision D5 (log 4). -/
def Obligations.HltHaltsInPlace : Prop :=
  (∀ n : Nibble, decodeByte (BitVec.ofNat 8 (0x70 + n.toNat)) = .hlt n) ∧
  (∀ (n : Nibble) (s : State), ∃ t, exec (.hlt n) s = .next t ∧ t.halt = true ∧ t.pc = s.pc ∧
    t.acc = s.acc ∧ t.ir = s.ir ∧ t.trace = s.trace ∧ SameMemory s t ∧ step t = .next t)

/-- CMP (45_control_transfer.md, "## CMP"): a skip of 2 on equality, else 1, modulo 16. That all 8 bits take part is the
spec's decision D2 (log 3). -/
def Obligations.CmpSkipsOnEquality : Prop :=
  (∀ a : Addr, decodeByte (BitVec.ofNat 8 (0x80 + a.toNat)) = .cmp a) ∧
  (∀ (a : Addr) (s : State), ∃ t, exec (.cmp a) s = .next t ∧
    (s.acc = s.memRead a → t.pc.toNat = (s.pc.toNat + 2) % 16) ∧
    (s.acc ≠ s.memRead a → t.pc.toNat = (s.pc.toNat + 1) % 16) ∧
    t.acc = s.acc ∧ t.ir = s.ir ∧ t.halt = s.halt ∧ t.trace = s.trace ∧ SameMemory s t)

/-- UNR9, UNRA, UNRB, UNRC, UNRD, UNRE and UNRF (41_nop.md, "## Unrecognized opcodes 1001 to 1111"): nothing but the PC and
the diagnostic event with the opcode. The event is the spec's decision D6 (log 2). -/
def Obligations.UnrecognizedOpcodesAreNoOps : Prop :=
  ∀ (n : Nibble) (s : State) (i : Instr) (op : Nat),
    (i, op) ∈ [(Instr.unr9 n, 9), (.unrA n, 10), (.unrB n, 11), (.unrC n, 12), (.unrD n, 13), (.unrE n, 14), (.unrF n, 15)] →
    decodeByte (BitVec.ofNat 8 (16 * op + n.toNat)) = i ∧
    ∃ t, exec i s = .next t ∧ t.trace = s.trace ++ [.diag (BitVec.ofNat 4 op)] ∧ t.outValues = s.outValues ∧
      t.pc.toNat = (s.pc.toNat + 1) % 16 ∧ t.acc = s.acc ∧ t.ir = s.ir ∧ t.halt = s.halt ∧ SameMemory s t

/-! ### The cycle -/

/-- 40_cycle.md, "## 1. The cycle": when the byte at PC decodes to a well-formed instruction, the step latches the byte into
IR and runs that instruction; a halted step changes nothing (the spec's decision D5, log 4). -/
def Obligations.StepRunsTheDecodedInstruction : Prop :=
  ∀ (s : State) (i : Instr) (rest : List Byte),
    decode (s.memRead s.pc :: rest) = .ok (i, rest) → i.wellFormed = true →
    (s.halt = false → step s = exec i { s with ir := s.memRead s.pc }) ∧ (s.halt = true → step s = .next s)

/-- R67: every executed cycle puts the cell at the starting PC into IR, for every opcode, and nothing else writes IR. -/
def Obligations.FetchIsTheOnlyWriterOfIr : Prop :=
  (∀ (s t : State), s.halt = false → step s = .next t → t.ir = s.memRead s.pc) ∧
  (∀ (i : Instr) (s t : State), exec i s = .next t → t.ir = s.ir)

/-- R18: no instruction reads IR, and what IR held before a cycle has no influence on it. -/
def Obligations.IrIsNeverAnInput : Prop :=
  (∀ (i : Instr) (s t : State) (b : Byte), exec i s = .next t → exec i { s with ir := b } = .next { t with ir := b }) ∧
  (∀ (s : State) (b : Byte), s.halt = false → step { s with ir := b } = step s)

/-- 40_cycle.md, "## 4. Properties of the step": exactly one successor for every state and every content of memory; the
halted state is its own (the spec's decision D5, log 4). -/
def Obligations.EveryStateHasOneSuccessor : Prop :=
  ∀ s : State, (∃! t : State, step s = .next t) ∧ (s.halt = true → step s = .next s)

/-- 40_cycle.md R66 for any number of ticks: a halted machine never changes again. Rests on the spec's decision D5
(log 4). -/
def Obligations.HaltedMachineStaysAsItIs : Prop :=
  ∀ (n : Nat) (s : State), s.halt = true → Sys2Proof.core.run n s = .next s

/-- 10_state.md, "## 6. Halt flag": a step leaves HALT at 1 exactly where it was 1 or the fetched byte is an HLT. Rests on
D5 for the halted case (log 4). -/
def Obligations.HaltRisesByHltAlone : Prop :=
  ∀ s t : State, step s = .next t → (t.halt = true ↔ s.halt = true ∨ opcodeOf (s.memRead s.pc) = 0b0111#4)

/-- 10_state.md, "## 4. Program counter", the table of new PCs. The CMP row compares whole bytes, the spec's decision D2
(log 3). -/
def Obligations.PcFollowsTheUpdateTable : Prop :=
  ∀ s t : State, s.halt = false → step s = .next t →
    t.pc.toNat =
      if opcodeOf (s.memRead s.pc) = 0b0110#4 then (operandOf (s.memRead s.pc)).toNat
      else if opcodeOf (s.memRead s.pc) = 0b0111#4 then s.pc.toNat
      else if opcodeOf (s.memRead s.pc) = 0b1000#4 ∧ s.acc = s.memRead (operandOf (s.memRead s.pc)) then
        (s.pc.toNat + 2) % 16
      else (s.pc.toNat + 1) % 16

/-- R17: the PC wraps without an event, a flag or a fault. A sequential instruction goes from 15 to 0, a CMP that skips from
14 to 0 and from 15 to 1; and everything else an instruction does is the same at every PC. -/
def Obligations.PcWrapsSilently : Prop :=
  (∀ (s : State) (i : Instr), s.pc = 15#4 → i.opcode ≠ 0b0110#4 → i.opcode ≠ 0b0111#4 → i.opcode ≠ 0b1000#4 →
    ∃ t, exec i s = .next t ∧ t.pc = 0#4) ∧
  (∀ (s : State) (a : Addr), s.acc = s.memRead a →
    (s.pc = 14#4 → ∃ t, exec (.cmp a) s = .next t ∧ t.pc = 0#4) ∧
    (s.pc = 15#4 → ∃ t, exec (.cmp a) s = .next t ∧ t.pc = 1#4)) ∧
  (∀ (i : Instr) (s t : State) (p : Addr), exec i s = .next t →
    ∃ u, exec i { s with pc := p } = .next u ∧ u = { t with pc := u.pc })

/-- 10_state.md, "## 3. Accumulator", the table of who writes ACC and what. The LDA row's whole cell is the spec's decision
D1 (log 3). -/
def Obligations.AccFollowsTheWriteTable : Prop :=
  ∀ s t : State, s.halt = false → step s = .next t →
    t.acc.toNat =
      if opcodeOf (s.memRead s.pc) = 0b0001#4 then (s.memRead (operandOf (s.memRead s.pc))).toNat
      else if opcodeOf (s.memRead s.pc) = 0b0010#4 then
        (s.acc.toNat + (s.memRead (operandOf (s.memRead s.pc))).toNat) % 16
      else if opcodeOf (s.memRead s.pc) = 0b0011#4 then
        (((s.acc.toNat : Int) - ((s.memRead (operandOf (s.memRead s.pc))).toNat : Int)) % 16).toNat
      else s.acc.toNat

/-- 20_memory.md, the table of accesses per instruction: after a step a cell reads as before, but for the cell a STO
addresses, which reads ACC (all 8 bits: the spec's decision D3, log 3). -/
def Obligations.StoIsTheOnlyMemoryWriter : Prop :=
  ∀ s t : State, s.halt = false → step s = .next t → ∀ a : Addr,
    t.memRead a =
      if opcodeOf (s.memRead s.pc) = 0b0100#4 ∧ a = operandOf (s.memRead s.pc) then s.acc else s.memRead a

/-- 40_cycle.md, "## 4. Properties of the step", on events: at most one a cycle, `Out(ACC)` for OUT, `Diag(opcode)` for 0x9
to 0xF, nothing otherwise, in the order of the cycles. The spec marks it as derived, the widths are D3 and the diagnostic
event D6 (log 2, 3); the record is the model's (log 1). -/
def Obligations.CycleEmitsAtMostOneEvent : Prop :=
  ∀ s t : State, s.halt = false → step s = .next t →
    t.trace = s.trace ++
      if opcodeOf (s.memRead s.pc) = 0b0101#4 then [.out s.acc]
      else if 9 ≤ (opcodeOf (s.memRead s.pc)).toNat then [.diag (opcodeOf (s.memRead s.pc))]
      else []

/-! ### Whole-machine properties -/

/-- Every step keeps the invariant: memory canonical, a halted machine standing on its HLT, only unrecognized opcodes on the
diagnostic channel. The first part is about the model's own form of memory (log 16); the second is what the spec derives in
40_cycle.md R76; the third rests on D6 (log 2). -/
def Obligations.StepKeepsTheInvariant : Prop :=
  ∀ s t : State, s.Inv → step s = .next t → t.Inv

/-- The reset state meets the invariant of `StepKeepsTheInvariant`. -/
def Obligations.ResetMeetsTheInvariant : Prop := State.reset.Inv

/-- 40_cycle.md, "## 4. Properties of the step", on the halted state (derived there): even without the gate a cycle would
change nothing. -/
def Obligations.UngatedHaltedCycleChangesNothing : Prop :=
  ∀ s : State, s.Inv → s.halt = true → cycle s = .next s

/-- 10_state.md, "## 9. Who may change state" (derived there): no step reads the event record; it only adds to it. That the
record stands in State is the model's choice (log 1). -/
def Obligations.EventRecordIsNeverRead : Prop :=
  ∀ (s t : State) (earlier : List Event), step s = .next t →
    step { s with trace := earlier ++ s.trace } = .next { t with trace := earlier ++ t.trace }

/-- 10_state.md, "## 7. Hidden state": what the host can see between cycles determines what it will see after the next, and
which events the cycle emits. That HALT is part of the snapshot is the spec's decision D18 (log 5). -/
def Obligations.SnapshotDeterminesTheCycle : Prop :=
  ∀ s s' t t' : State, SameSnapshot s s' → step s = .next t → step s' = .next t' →
    SameSnapshot t t' ∧ ∃ events : List Event, t.trace = s.trace ++ events ∧ t'.trace = s'.trace ++ events

/-- 70_reset_and_hazards.md, "## 2. The end of a run" (derived there): from every state, halting or not, the run repeats a
snapshot after finitely many ticks and is periodic from there on. -/
def Obligations.EveryRunIsEventuallyPeriodic : Prop :=
  ∀ s : State, ∃ start period : Nat, 0 < period ∧ ∀ k : Nat, ∃ u v : State,
    Sys2Proof.core.run (start + k) s = .next u ∧ Sys2Proof.core.run (start + k + period) s = .next v ∧ SameSnapshot u v

/-- 40_cycle.md, "## 2. Control decode and write enables" and "## 3. Datapath units" (derived there): the write enables, the
4-bit ALU, the comparator and the incrementer make the same step, and at most one of the five enables is 1. The comparator's
8 bits are D2, the datum widths D1 and D3 (log 3), the gate D5 (log 4). -/
def Obligations.DatapathRealisesTheStep : Prop :=
  (∀ s : State, step s = .next (datapathTick s)) ∧ (∀ s : State, s.control.enables ≤ 1)

/-- 43_arithmetic.md, "## Arithmetic laws": the upper nibbles of ACC and of the cell cannot affect ADD or SUB, and the
results are the 4-bit ones. The ring identity behind it is general knowledge, as the spec says. -/
def Obligations.UpperNibblesDoNotReachTheAlu : Prop :=
  (∀ A M : Byte, addResult A M = (lowNibble A + lowNibble M).setWidth 8 ∧
    subResult A M = (lowNibble A - lowNibble M).setWidth 8) ∧
  (∀ A A' M M' : Byte, A.toNat % 16 = A'.toNat % 16 → M.toNat % 16 = M'.toNat % 16 →
    addResult A M = addResult A' M' ∧ subResult A M = subResult A' M')

/-- 10_state.md, "## 3. Accumulator", on the upper nibble (derived there): where ACC is below 16 and a cell that an LDA reads
is too, a step keeps ACC below 16, changes a cell only to a value below 16 and emits only values below 16. -/
def Obligations.SmallAccumulatorStaysSmall : Prop :=
  ∀ s t : State, s.acc.toNat < 16 →
    (opcodeOf (s.memRead s.pc) = 0b0001#4 → (s.memRead (operandOf (s.memRead s.pc))).toNat < 16) →
    step s = .next t →
    t.acc.toNat < 16 ∧ (∀ a : Addr, t.memRead a ≠ s.memRead a → (t.memRead a).toNat < 16) ∧
    ∃ vs : List Byte, t.outValues = s.outValues ++ vs ∧ ∀ v ∈ vs, v.toNat < 16

/-- 20_memory.md, "## 7. Memory ordering", on fetch coherence (derived there): what a STO puts into the next cell is what
the next cycle fetches and runs. The stored byte is all of ACC: the spec's decision D3 (log 3). -/
def Obligations.StoreIsSeenByTheNextFetch : Prop :=
  ∀ s t : State, s.halt = false → s.memRead s.pc = encodeFields 0b0100#4 (s.pc + 1#4) → step s = .next t →
    step t = exec (decodeByte s.acc) { t with ir := s.acc }

/-- 20_memory.md, "## 5. Order of accesses inside a cycle": an instruction whose operand is its own address. STO runs the
old byte and then overwrites it; LDA, ADD, SUB and CMP read their own byte. The order is the spec's decision D9 (log 7), the
widths D1 to D3 (log 3). -/
def Obligations.OwnAddressAsOperand : Prop :=
  ∀ s : State, s.halt = false →
    (s.memRead s.pc = encodeFields 0b0100#4 s.pc → ∃ t, step s = .next t ∧
      t.ir = encodeFields 0b0100#4 s.pc ∧ t.memRead s.pc = s.acc ∧ t.pc = s.pc + 1#4) ∧
    (s.memRead s.pc = encodeFields 0b0001#4 s.pc → ∃ t, step s = .next t ∧ t.acc = encodeFields 0b0001#4 s.pc) ∧
    (s.memRead s.pc = encodeFields 0b0010#4 s.pc → ∃ t, step s = .next t ∧
      t.acc.toNat = (s.acc.toNat + s.pc.toNat) % 16) ∧
    (s.memRead s.pc = encodeFields 0b0011#4 s.pc → ∃ t, step s = .next t ∧
      (t.acc.toNat : Int) = ((s.acc.toNat : Int) - (s.pc.toNat : Int)) % 16) ∧
    (s.memRead s.pc = encodeFields 0b1000#4 s.pc → ∃ t, step s = .next t ∧
      t.pc = if s.acc = encodeFields 0b1000#4 s.pc then s.pc + 2#4 else s.pc + 1#4)

/-! ### Memory's form -/

/-- Two canonical memories whose 16 cells read the same are the same list: the form is one per array content. About the
model's own representation of the 16 cells of R11 (log 16). -/
def Obligations.CanonicalMemoryIsItsContent : Prop :=
  ∀ m m' : Memory, Memory.wf m → Memory.wf m' → (∀ a : Addr, Memory.read m a = Memory.read m' a) → m = m'

/-- 42_load_store.md, STO's corner case (d): storing what a cell holds changes nothing, the list included (log 16). -/
def Obligations.StoringTheOldValueChangesNothing : Prop :=
  ∀ (m : Memory) (a : Addr), Memory.wf m → Memory.write m a (Memory.read m a) = m

/-! ### Reset, load and the host's moves -/

/-- R25: every element is zero after reset, and after a load of `n` bytes, `n` at most 16, cells 0 to n-1 hold the image and
everything else its reset value. (The event record's empty start is the model's: no clause here is about it.) -/
def Obligations.ResetAndLoadLeaveTheLaunchState : Prop :=
  (∀ a : Addr, State.reset.memRead a = 0x00#8) ∧ State.reset.acc = 0x00#8 ∧ State.reset.pc = 0#4 ∧
  State.reset.ir = 0x00#8 ∧ State.reset.halt = false ∧
  (∀ image : List Byte, image.length ≤ 16 →
    (∀ a : Addr, (launch image).memRead a = image.getD a.toNat 0x00#8) ∧
    (launch image).acc = 0x00#8 ∧ (launch image).pc = 0#4 ∧ (launch image).ir = 0x00#8 ∧ (launch image).halt = false)

/-- 20_memory.md, "## 6. The load operation": a load of at most 16 bytes, in the one session that allows it, writes those
cells and nothing else; a longer one is refused as LoadOverflow. When a load is allowed is the spec's decision D10, the
refusal D11 (log 6, 8). -/
def Obligations.LoadWritesTheImageOrIsRefused : Prop :=
  ∀ (s : State) (image : List Byte),
    (image.length ≤ 16 → ∃ t : State, hostMove (.booted s) (.load image) = .next (.loaded t) ∧
      (∀ a : Addr, t.memRead a = image.getD a.toNat (s.memRead a)) ∧
      t.acc = s.acc ∧ t.pc = s.pc ∧ t.ir = s.ir ∧ t.halt = s.halt ∧ t.trace = s.trace) ∧
    (16 < image.length → hostMove (.booted s) (.load image) = .refused .loadOverflow)

/-- 70_reset_and_hazards.md, "## 1. Reset and boot": Reset and then Load give the launch state, and an image that does not
fit gives none. When a load is allowed is D10, the refusal D11 (log 6, 8). -/
def Obligations.BootGivesTheLaunchState : Prop :=
  ∀ image : List Byte,
    hostMoves .unbooted [.reset, .load image] =
      if image.length ≤ 16 then .next (.loaded (launch image)) else .refused .loadOverflow

/-- 50_interfaces.md, "## 4. The host's liberties and duties": the moves the host is assumed never to make have no
successor. They are the spec's decision D10 (log 9). -/
def Obligations.ExcludedHostMovesAreRefused : Prop :=
  hostMove .unbooted .tick = .refused .hostMoveExcluded ∧
  ∀ (s : State) (image : List Byte),
    hostMove .unbooted (.load image) = .refused .hostMoveExcluded ∧
    hostMove (.loaded s) (.load image) = .refused .hostMoveExcluded ∧
    hostMove (.running s) (.load image) = .refused .hostMoveExcluded

/-- 50_interfaces.md, "## 2. Inputs" and "## 3. Outputs": `Halted` falls in no host move but `Reset`, which the host may make
at any time (the spec's decision D10, log 6). -/
def Obligations.OnlyResetClearsHalt : Prop :=
  (∀ σ : Session, ∃ s : State, hostMove σ .reset = .next (.booted s) ∧ s.halt = false) ∧
  (∀ (σ σ' : Session) (m : HostMove), hostMove σ m = .next σ' → σ.halted = true → m ≠ .reset → σ'.halted = true)

/-- Every host move keeps the session's invariant (70_reset_and_hazards.md, "## 1. Reset and boot"): the reset state after
Reset, reset registers over canonical memory after Load, the machine's invariant after a tick. The session is the model's
form of D10 (log 6, 9). -/
def Obligations.HostMovesKeepTheSessionInvariant : Prop :=
  ∀ (σ σ' : Session) (m : HostMove), σ.Inv → hostMove σ m = .next σ' → σ'.Inv

/-- Whatever the host does from power-on, in any order and at any rate, the machine it then has meets the machine's
invariant (logs 6, 9 and 16). -/
def Obligations.EveryReachableMachineIsSound : Prop :=
  ∀ (moves : List HostMove) (σ : Session) (s : State),
    hostMoves .unbooted moves = .next σ → σ.state? = some s → s.Inv

/-! ### The signal-level reading and the text image -/

/-- 50_interfaces.md, "## 6. A signal-level reading" (the spec's decision D8): an enabled clock edge is one step, and the
valid pulses and data buses of that cycle are exactly the event the step emits. -/
def Obligations.PinsCarryTheCyclesEvent : Prop :=
  ∀ (s : State) (p : PinsIn), p.rst = false → p.tick = true → p.loadWe = false →
    ∃ t : State, clockEdge p s = .next t ∧ step s = .next t ∧
      t.trace = s.trace ++
        (if (s.pins p).outValid = true then [.out (s.pins p).outData] else []) ++
        (if (s.pins p).diagValid = true then [.diag (s.pins p).diagOpcode] else [])

/-- 50_interfaces.md, "## 6. A signal-level reading" (the spec's decision D8): reset and one load edge per byte, addresses
0, 1, 2, ... in order, give the launch state of the image. -/
def Obligations.PinLoadGivesTheLaunchState : Prop :=
  ∀ (s : State) (image : List Byte), image.length ≤ 16 →
    clockEdges ({ PinsIn.idle with rst := true } :: loadEdges 0 image) s = .next (launch image)

/-- 50_interfaces.md, "## 5. Host-side formats", the text image: cell `i` has bit `7 - j` equal to the text's bit `8i + j`, a
trailing partial byte is dropped, 17 full cells or more overflow, and 129 to 135 bits are refused (the spec leaves those
open: D19, log 12). -/
def Obligations.TextImageGivesItsCells : Prop :=
  ∀ text : List Char,
    ((imageBits text).length ≤ 128 → ∃ cells : List Byte, parseImage text = .next cells ∧
      cells.length = (imageBits text).length / 8 ∧
      ∀ i j : Nat, i < (imageBits text).length / 8 → j < 8 →
        (cells.getD i 0x00#8).getLsbD (7 - j) = (imageBits text).getD (8 * i + j) false) ∧
    (128 < (imageBits text).length → (imageBits text).length < 136 →
      parseImage text = .refused .partialSeventeenthCell) ∧
    (136 ≤ (imageBits text).length → parseImage text = .refused .loadOverflow)
end

