-- ==== Sys2Proof/Laws/Decode.lean ====
section
/-! SUPPORT. The two fields of a byte and the opcode map's sixteen cases. -/

namespace Sys2Proof

@[simp] theorem opcodeOf_toNat (b : Byte) : (opcodeOf b).toNat = b.toNat / 16 := by
  have := b.isLt
  simp only [opcodeOf, BitVec.extractLsb'_toNat, Nat.shiftRight_eq_div_pow]
  omega

@[simp] theorem operandOf_toNat (b : Byte) : (operandOf b).toNat = b.toNat % 16 := by
  simp [operandOf]

@[simp] theorem opcodeOf_encodeFields (op n : Nibble) : opcodeOf (encodeFields op n) = op :=
  BitVec.extractLsb'_append_eq_left

@[simp] theorem operandOf_encodeFields (op n : Nibble) : operandOf (encodeFields op n) = n :=
  BitVec.extractLsb'_append_eq_right

/-- An opcode is one of the sixteen rows' (spec/30_encoding.md R55): the case split for proofs over all bytes. -/
theorem opcode_cases (op : Nibble) :
    op = 0x0#4 ∨ op = 0x1#4 ∨ op = 0x2#4 ∨ op = 0x3#4 ∨ op = 0x4#4 ∨ op = 0x5#4 ∨ op = 0x6#4 ∨ op = 0x7#4 ∨
      op = 0x8#4 ∨ op = 0x9#4 ∨ op = 0xA#4 ∨ op = 0xB#4 ∨ op = 0xC#4 ∨ op = 0xD#4 ∨ op = 0xE#4 ∨ op = 0xF#4 := by
  revert op; decide

end Sys2Proof
end

