-- ==== Sys2Proof/Laws/State.lean ====
section
/-! SUPPORT. What every named update of the state does to every field, one lemma each, true by unfolding the update once.
No later proof unfolds a record update. -/

namespace Sys2Proof.Machine

variable (s : State)

@[simp] theorem State.memWrite_mem (a : Addr) (v : Byte) : (s.memWrite a v).mem = Memory.write s.mem a v := rfl
@[simp] theorem State.memWrite_acc (a : Addr) (v : Byte) : (s.memWrite a v).acc = s.acc := rfl
@[simp] theorem State.memWrite_pc (a : Addr) (v : Byte) : (s.memWrite a v).pc = s.pc := rfl
@[simp] theorem State.memWrite_ir (a : Addr) (v : Byte) : (s.memWrite a v).ir = s.ir := rfl
@[simp] theorem State.memWrite_halt (a : Addr) (v : Byte) : (s.memWrite a v).halt = s.halt := rfl
@[simp] theorem State.memWrite_trace (a : Addr) (v : Byte) : (s.memWrite a v).trace = s.trace := rfl

@[simp] theorem State.setAcc_mem (v : Byte) : (s.setAcc v).mem = s.mem := rfl
@[simp] theorem State.setAcc_acc (v : Byte) : (s.setAcc v).acc = v := rfl
@[simp] theorem State.setAcc_pc (v : Byte) : (s.setAcc v).pc = s.pc := rfl
@[simp] theorem State.setAcc_ir (v : Byte) : (s.setAcc v).ir = s.ir := rfl
@[simp] theorem State.setAcc_halt (v : Byte) : (s.setAcc v).halt = s.halt := rfl
@[simp] theorem State.setAcc_trace (v : Byte) : (s.setAcc v).trace = s.trace := rfl

@[simp] theorem State.setPc_mem (target : Addr) : (s.setPc target).mem = s.mem := rfl
@[simp] theorem State.setPc_acc (target : Addr) : (s.setPc target).acc = s.acc := rfl
@[simp] theorem State.setPc_pc (target : Addr) : (s.setPc target).pc = target := rfl
@[simp] theorem State.setPc_ir (target : Addr) : (s.setPc target).ir = s.ir := rfl
@[simp] theorem State.setPc_halt (target : Addr) : (s.setPc target).halt = s.halt := rfl
@[simp] theorem State.setPc_trace (target : Addr) : (s.setPc target).trace = s.trace := rfl

@[simp] theorem State.setIr_mem (byte : Byte) : (s.setIr byte).mem = s.mem := rfl
@[simp] theorem State.setIr_acc (byte : Byte) : (s.setIr byte).acc = s.acc := rfl
@[simp] theorem State.setIr_pc (byte : Byte) : (s.setIr byte).pc = s.pc := rfl
@[simp] theorem State.setIr_ir (byte : Byte) : (s.setIr byte).ir = byte := rfl
@[simp] theorem State.setIr_halt (byte : Byte) : (s.setIr byte).halt = s.halt := rfl
@[simp] theorem State.setIr_trace (byte : Byte) : (s.setIr byte).trace = s.trace := rfl

@[simp] theorem State.setHalt_mem : s.setHalt.mem = s.mem := rfl
@[simp] theorem State.setHalt_acc : s.setHalt.acc = s.acc := rfl
@[simp] theorem State.setHalt_pc : s.setHalt.pc = s.pc := rfl
@[simp] theorem State.setHalt_ir : s.setHalt.ir = s.ir := rfl
@[simp] theorem State.setHalt_halt : s.setHalt.halt = true := rfl
@[simp] theorem State.setHalt_trace : s.setHalt.trace = s.trace := rfl

@[simp] theorem State.emit_mem (e : Event) : (s.emit e).mem = s.mem := rfl
@[simp] theorem State.emit_acc (e : Event) : (s.emit e).acc = s.acc := rfl
@[simp] theorem State.emit_pc (e : Event) : (s.emit e).pc = s.pc := rfl
@[simp] theorem State.emit_ir (e : Event) : (s.emit e).ir = s.ir := rfl
@[simp] theorem State.emit_halt (e : Event) : (s.emit e).halt = s.halt := rfl
@[simp] theorem State.emit_trace (e : Event) : (s.emit e).trace = s.trace ++ [e] := rfl

@[simp] theorem State.dataWrite_mem (n : Nibble) (v : Byte) : (s.dataWrite n v).mem = Memory.write s.mem n v := rfl
@[simp] theorem State.dataWrite_acc (n : Nibble) (v : Byte) : (s.dataWrite n v).acc = s.acc := rfl
@[simp] theorem State.dataWrite_pc (n : Nibble) (v : Byte) : (s.dataWrite n v).pc = s.pc := rfl
@[simp] theorem State.dataWrite_ir (n : Nibble) (v : Byte) : (s.dataWrite n v).ir = s.ir := rfl
@[simp] theorem State.dataWrite_halt (n : Nibble) (v : Byte) : (s.dataWrite n v).halt = s.halt := rfl
@[simp] theorem State.dataWrite_trace (n : Nibble) (v : Byte) : (s.dataWrite n v).trace = s.trace := rfl

@[simp] theorem State.advance_mem : s.advance.mem = s.mem := rfl
@[simp] theorem State.advance_acc : s.advance.acc = s.acc := rfl
@[simp] theorem State.advance_pc : s.advance.pc = pcPlus s.pc 1 := rfl
@[simp] theorem State.advance_ir : s.advance.ir = s.ir := rfl
@[simp] theorem State.advance_halt : s.advance.halt = s.halt := rfl
@[simp] theorem State.advance_trace : s.advance.trace = s.trace := rfl

@[simp] theorem State.fetched_mem : s.fetched.mem = s.mem := rfl
@[simp] theorem State.fetched_acc : s.fetched.acc = s.acc := rfl
@[simp] theorem State.fetched_pc : s.fetched.pc = s.pc := rfl
@[simp] theorem State.fetched_ir : s.fetched.ir = s.fetch := rfl
@[simp] theorem State.fetched_halt : s.fetched.halt = s.halt := rfl
@[simp] theorem State.fetched_trace : s.fetched.trace = s.trace := rfl

@[simp] theorem State.withFetchWord_mem (nbits w : Nat) : (s.withFetchWord nbits w).mem = Memory.write s.mem s.pc (BitVec.ofNat 8 (w % 2 ^ nbits)) := rfl
@[simp] theorem State.withFetchWord_acc (nbits w : Nat) : (s.withFetchWord nbits w).acc = s.acc := rfl
@[simp] theorem State.withFetchWord_pc (nbits w : Nat) : (s.withFetchWord nbits w).pc = s.pc := rfl
@[simp] theorem State.withFetchWord_ir (nbits w : Nat) : (s.withFetchWord nbits w).ir = s.ir := rfl
@[simp] theorem State.withFetchWord_halt (nbits w : Nat) : (s.withFetchWord nbits w).halt = false := rfl
@[simp] theorem State.withFetchWord_trace (nbits w : Nat) : (s.withFetchWord nbits w).trace = s.trace := rfl

/-- Cells read through the memory field alone: an update that keeps the field keeps every read. -/
theorem State.memRead_congr {s t : State} (h : t.mem = s.mem) (a : Addr) : t.memRead a = s.memRead a := by
  simp only [State.memRead, h]

end Sys2Proof.Machine
end

