-- ==== Sys2Proof/Laws/Memory.lean ====
section
/-! SUPPORT. The memory's contract (spec/20_memory.md R31): a read after a write, a write and every other cell, and that
every memory operation keeps the canonical form. -/

namespace Sys2Proof.Machine

@[simp] theorem Memory.lookup_erase_same (m : Memory) (n : Nat) : (m.erase n).lookup n = Memory.unlisted := by
  induction m with
  | nil => rfl
  | cons c rest ih =>
    obtain ⟨k, v⟩ := c
    by_cases h : k = n <;> simp_all [Memory.erase, Memory.lookup]

theorem Memory.lookup_erase_other (m : Memory) {n k : Nat} (h : k ≠ n) : (m.erase n).lookup k = m.lookup k := by
  induction m with
  | nil => rfl
  | cons c rest ih =>
    obtain ⟨j, v⟩ := c
    by_cases hj : j = n
    · have hk : j ≠ k := fun e => h (e ▸ hj)
      simp_all [Memory.erase, Memory.lookup]
    · simp_all [Memory.erase, Memory.lookup]

/-- An erased address is listed no more. -/
theorem Memory.not_listed_erase (m : Memory) (n : Nat) : ∀ c ∈ m.erase n, c.1 ≠ n := by
  simp [Memory.erase]

theorem Memory.lookup_insert_same {m : Memory} {n : Nat} (v : Byte) (h : ∀ c ∈ m, c.1 ≠ n) :
    (Memory.insert n v m).lookup n = v := by
  induction m with
  | nil => simp [Memory.insert, Memory.lookup]
  | cons c rest ih =>
    obtain ⟨k, w⟩ := c
    have hk : k ≠ n := h (k, w) List.mem_cons_self
    have hr := ih fun c hc => h c (List.mem_cons_of_mem _ hc)
    unfold Memory.insert
    split <;> simp [Memory.lookup, hk, hr]

theorem Memory.lookup_insert_other (m : Memory) {n k : Nat} (v : Byte) (h : k ≠ n) :
    (Memory.insert n v m).lookup k = m.lookup k := by
  induction m with
  | nil => simp [Memory.insert, Memory.lookup, Ne.symm h]
  | cons c rest ih =>
    obtain ⟨j, w⟩ := c
    unfold Memory.insert
    split <;> simp [Memory.lookup, Ne.symm h, ih]

/-- A read after a write of the same cell returns the value written (R31). -/
@[simp] theorem Memory.read_write_same (m : Memory) (a : Addr) (v : Byte) : (m.write a v).read a = v := by
  unfold Memory.write Memory.read
  split
  · simp [*]
  · exact Memory.lookup_insert_same v (Memory.not_listed_erase m _)

/-- A write changes no other cell (R31). -/
theorem Memory.read_write_other (m : Memory) {a b : Addr} (v : Byte) (h : b ≠ a) : (m.write a v).read b = m.read b := by
  have hn : b.toNat ≠ a.toNat := fun e => h (BitVec.eq_of_toNat_eq e)
  unfold Memory.write Memory.read
  split
  · exact Memory.lookup_erase_other m hn
  · rw [Memory.lookup_insert_other _ v hn, Memory.lookup_erase_other m hn]

/-- Both laws at once: what any cell reads after a write. -/
theorem Memory.read_write (m : Memory) (a b : Addr) (v : Byte) :
    (m.write a v).read b = if b = a then v else m.read b := by
  split
  · next h => rw [h, Memory.read_write_same]
  · next h => exact Memory.read_write_other m v h

theorem State.memRead_memWrite (s : State) (a b : Addr) (v : Byte) :
    (s.memWrite a v).memRead b = if b = a then v else s.memRead b :=
  Memory.read_write s.mem a b v

theorem Memory.wf_nil : Memory.wf ([] : Memory) := by decide

theorem Memory.wf_erase {m : Memory} (h : m.wf) (n : Nat) : (m.erase n).wf :=
  ⟨h.1.filter _, fun c hc => h.2 c (List.mem_of_mem_filter hc)⟩

/-- What an insertion lists is what was listed, and the new entry. -/
theorem Memory.mem_insert {m : Memory} {n : Nat} {v : Byte} {c : Host.Cell} (h : c ∈ Memory.insert n v m) :
    c = (n, v) ∨ c ∈ m := by
  induction m with
  | nil => exact .inl (by simpa [Memory.insert] using h)
  | cons d rest ih =>
    unfold Memory.insert at h
    split at h
    · simpa using h
    · rcases List.mem_cons.1 h with rfl | h'
      · exact .inr List.mem_cons_self
      · exact (ih h').imp id (List.mem_cons_of_mem _)

theorem Memory.wf_insert {m : Memory} (h : m.wf) {n : Nat} {v : Byte} (hn : n < Config.memCells)
    (hv : v ≠ Memory.unlisted) (hnew : ∀ c ∈ m, c.1 ≠ n) : (Memory.insert n v m).wf := by
  refine ⟨?_, fun c hc => ?_⟩
  · induction m with
    | nil => exact List.pairwise_singleton _ _
    | cons d rest ih =>
      obtain ⟨hd, hrest⟩ := List.pairwise_cons.1 h.1
      have hdn : d.1 ≠ n := hnew d List.mem_cons_self
      have ih' := ih ⟨hrest, fun c hc => h.2 c (List.mem_cons_of_mem _ hc)⟩
        fun c hc => hnew c (List.mem_cons_of_mem _ hc)
      unfold Memory.insert
      split
      · next hlt =>
        refine List.pairwise_cons.2 ⟨fun c hc => ?_, h.1⟩
        rcases List.mem_cons.1 hc with rfl | hc
        · exact hlt
        · exact lt_trans hlt (hd c hc)
      · next hlt =>
        refine List.pairwise_cons.2 ⟨fun c hc => ?_, ih'⟩
        rcases Memory.mem_insert hc with rfl | hc
        · exact lt_of_le_of_ne (not_lt.1 hlt) hdn
        · exact hd c hc
  · rcases Memory.mem_insert hc with rfl | hc
    · exact ⟨hn, hv⟩
    · exact h.2 c hc

/-- A write keeps the canonical form. -/
theorem Memory.wf_write {m : Memory} (h : m.wf) (a : Addr) (v : Byte) : (m.write a v).wf := by
  unfold Memory.write
  split
  · exact Memory.wf_erase h _
  · next hv => exact Memory.wf_insert (Memory.wf_erase h _) a.isLt hv (Memory.not_listed_erase m _)

theorem Memory.wf_loadFrom (image : List Byte) : ∀ (i : Nat) {m : Memory}, m.wf → (Memory.loadFrom i image m).wf := by
  induction image with
  | nil => exact fun _ _ h => h
  | cons b rest ih => exact fun i m h => ih (i + 1) (Memory.wf_write h _ b)

/-- A load keeps the canonical form. -/
theorem Memory.wf_load {m : Memory} (h : m.wf) (image : List Byte) : (m.load image).wf :=
  Memory.wf_loadFrom image 0 h

/-- The reset state's memory is in canonical form. -/
theorem State.reset_memory_wf : State.reset.mem.wf := Memory.wf_nil

end Sys2Proof.Machine
end

