-- ==== Sys2Proof/Laws/Ops.lean ====
section
/-! SUPPORT. One lemma per shared operation, to be cited instead of unfolding it. -/

namespace Sys2Proof.Machine

@[simp] theorem maskNat_toNat (x : Nat) : (maskNat x).toNat = x % 16 := by
  simp [maskNat]

@[simp] theorem maskInt_toNat (x : Int) : ((maskInt x).toNat : Int) = x % 16 := by
  have h : 0 ≤ x % 16 ∧ x % 16 < 16 := ⟨Int.emod_nonneg x (by decide), Int.emod_lt_of_pos x (by decide)⟩
  simp only [maskInt, BitVec.toNat_ofNat]
  omega

@[simp] theorem zext8_toNat (v : Nibble) : (zext8 v).toNat = v.toNat := by
  have := v.isLt
  simp only [zext8, BitVec.toNat_setWidth]
  omega

/-- The PC's arithmetic is modulo 16 (spec/10_state.md R17). -/
@[simp] theorem pcPlus_toNat (pc : Addr) (n : Nat) : (pcPlus pc n).toNat = (pc.toNat + n) % 16 := maskNat_toNat _

theorem pcPlus_one (pc : Addr) : pcPlus pc 1 = pc + 1#4 :=
  BitVec.eq_of_toNat_eq (by simp [BitVec.toNat_add])

theorem pcPlus_two (pc : Addr) : pcPlus pc 2 = pc + 2#4 :=
  BitVec.eq_of_toNat_eq (by simp [BitVec.toNat_add])

/-- ADD's result as a number. -/
theorem addResult_toNat (acc m : Byte) : (addResult acc m).toNat = (acc.toNat + m.toNat) % 16 := by
  simp [addResult]

/-- SUB's result as a number. -/
theorem subResult_toNat (acc m : Byte) :
    ((subResult acc m).toNat : Int) = ((acc.toNat : Int) - (m.toNat : Int)) % 16 := by
  simp [subResult]

/-- CMP's test is equality of the whole bytes. -/
theorem cmpEqual_iff (acc m : Byte) : cmpEqual acc m = true ↔ acc = m := by
  simp [cmpEqual]

@[simp] theorem State.dataRead_eq (s : State) (n : Nibble) : s.dataRead n = s.memRead n := rfl

@[simp] theorem State.dataWrite_eq (s : State) (n : Nibble) (v : Byte) : s.dataWrite n v = s.memWrite n v := rfl

/-- An image fits where it has at most 16 bytes. -/
theorem imageFits_iff (image : List Byte) : imageFits image = true ↔ image.length ≤ 16 := decide_eq_true_iff

/-- The halted state's step. -/
theorem step_of_halted {s : State} (h : s.halt = true) : step s = .next s := if_pos h

/-- The step of a state that is not halted. -/
theorem step_of_running {s : State} (h : s.halt = false) : step s = exec (decodeByte s.fetch) s.fetched := by
  simp [step, h, cycle]

/-- No steps of the machine. -/
theorem core_run_zero (s : State) : Sys2Proof.core.run 0 s = .next s := rfl

/-- One step of the machine, and then `n` more. -/
theorem core_run_of_next {s t : State} (n : Nat) (h : step s = .next t) :
    Sys2Proof.core.run (n + 1) s = Sys2Proof.core.run n t := by
  have hc : Sys2Proof.core.step s = .next t := h
  exact (Host.Core.run.eq_2 Sys2Proof.core s n).trans (by rw [hc])

/-- Everything an unrecognized opcode's rule does. -/
theorem unrecognized_next {op : Nibble} {s t : State} (h : unrecognized op s = .next t) :
    t = (s.emit (.diag op)).advance := by
  cases h; rfl

/-- Everything a tick of a state can answer: the running session of the step's next state. -/
theorem tickOnce_next {s : State} {σ : Session} (h : tickOnce s = .next σ) : ∃ t, step s = .next t ∧ σ = .running t := by
  unfold tickOnce at h
  split at h
  · next t ht => exact ⟨t, ht, by cases h; rfl⟩
  · cases h
  · cases h

/-- Where a session has a state, `Halted` is HALT (spec/50_interfaces.md R119). -/
theorem Session.halted_of_state {σ : Session} {s : State} (h : σ.state? = some s) : σ.halted = s.halt := by
  simp [Session.halted, h]

@[simp] theorem Session.halted_booted (s : State) : (Session.booted s).halted = s.halt := rfl
@[simp] theorem Session.halted_loaded (s : State) : (Session.loaded s).halted = s.halt := rfl
@[simp] theorem Session.halted_running (s : State) : (Session.running s).halted = s.halt := rfl

/-- While `diag_valid` is 1, `diag_opcode` is the fetched byte's opcode (spec/50_interfaces.md R124). -/
theorem State.pins_diagOpcode {s : State} {p : PinsIn} (h : (s.pins p).diagValid = true) :
    (s.pins p).diagOpcode = opcodeOf s.fetch := if_pos h

end Sys2Proof.Machine
end

