-- ==== Sys2Proof/Laws/PerInstr.lean ====
section
/-! SUPPORT. Per instruction: the byte it is encoded as carries its opcode in the high nibble and its operand in the low one
(spec/30_encoding.md R50, R52, R55). -/

namespace Sys2Proof.Laws.EncodedFields

/-- The two fields of an instruction's byte are its opcode and its operand. -/
def Statement (i : Instr) : Prop := opcodeOf (encodeByte i) = i.opcode ∧ operandOf (encodeByte i) = i.operand

/-- The fields of any instruction's byte, from its opcode and operand alone. -/
theorem of_fields (i : Instr) : Statement i := ⟨opcodeOf_encodeFields _ _, operandOf_encodeFields _ _⟩

theorem nop (n : Nibble) : Statement (.nop n) := of_fields _
theorem lda (n : Addr) : Statement (.lda n) := of_fields _
theorem add (n : Addr) : Statement (.add n) := of_fields _
theorem sub (n : Addr) : Statement (.sub n) := of_fields _
theorem sto (n : Addr) : Statement (.sto n) := of_fields _
theorem out (n : Nibble) : Statement (.out n) := of_fields _
theorem jmp (n : Addr) : Statement (.jmp n) := of_fields _
theorem hlt (n : Nibble) : Statement (.hlt n) := of_fields _
theorem cmp (n : Addr) : Statement (.cmp n) := of_fields _
theorem unr9 (n : Nibble) : Statement (.unr9 n) := of_fields _
theorem unrA (n : Nibble) : Statement (.unrA n) := of_fields _
theorem unrB (n : Nibble) : Statement (.unrB n) := of_fields _
theorem unrC (n : Nibble) : Statement (.unrC n) := of_fields _
theorem unrD (n : Nibble) : Statement (.unrD n) := of_fields _
theorem unrE (n : Nibble) : Statement (.unrE n) := of_fields _
theorem unrF (n : Nibble) : Statement (.unrF n) := of_fields _

end Sys2Proof.Laws.EncodedFields
end

