-- ==== Sys2Proof/Tests/Slice0.lean ====
section
/-! SUPPORT. The model's own tests. Expected results are those of spec/95_test_vectors.md (the vector's id is in the test's
comment) or follow from the encoding of spec/30_encoding.md written out bit by bit. After them, for every statement with
hypotheses, a witness that meets them all. -/

namespace Sys2Proof.Tests

open Sys2Proof.Machine

/-- A state with the named cells written over zero memory, not halted. -/
def stateOf (pc : Addr) (acc : Byte) (cells : List (Addr × Byte)) : State :=
  { State.reset with mem := cells.foldl (fun m c => Memory.write m c.1 c.2) [], acc := acc, pc := pc }

/-- The state after one step, or the state itself where the step stops (it never does). -/
def after (s : State) : State :=
  match step s with
  | .next t => t
  | .fault _ => s
  | .refused _ => s

/-! ### Decoding, one word per constructor, from the table's pattern of bits -/

theorem test_decode_nop : decode [0b00001111#8] = .ok (.nop 15, []) := rfl
theorem test_decode_lda : decode [0b00011101#8] = .ok (.lda 13, []) := rfl
theorem test_decode_add : decode [0b00100001#8] = .ok (.add 1, []) := rfl
theorem test_decode_sub : decode [0b00111110#8] = .ok (.sub 14, []) := rfl
theorem test_decode_sto : decode [0b01000010#8] = .ok (.sto 2, []) := rfl
theorem test_decode_out : decode [0b01011111#8] = .ok (.out 15, []) := rfl
theorem test_decode_jmp : decode [0b01100011#8] = .ok (.jmp 3, []) := rfl
theorem test_decode_hlt : decode [0b01111100#8] = .ok (.hlt 12, []) := rfl
theorem test_decode_cmp : decode [0b10001111#8] = .ok (.cmp 15, []) := rfl
theorem test_decode_unr9 : decode [0b10011010#8] = .ok (.unr9 10, []) := rfl
theorem test_decode_unrA : decode [0b10100101#8] = .ok (.unrA 5, []) := rfl
theorem test_decode_unrB : decode [0b10110111#8] = .ok (.unrB 7, []) := rfl
theorem test_decode_unrC : decode [0b11000011#8] = .ok (.unrC 3, []) := rfl
theorem test_decode_unrD : decode [0b11010001#8] = .ok (.unrD 1, []) := rfl
theorem test_decode_unrE : decode [0b11101000#8] = .ok (.unrE 8, []) := rfl
theorem test_decode_unrF : decode [0b11111111#8] = .ok (.unrF 15, []) := rfl

/-- The bytes after the first are left over, and no bytes are refused by name. -/
theorem test_decode_rest : decode [0x42#8, 0x70#8] = .ok (.sto 2, [0x70#8]) ∧ decode [] = .error .noByte := ⟨rfl, rfl⟩

theorem test_table_word : decodeTableWord 8 0x63 = some (.jmp 3) ∧ decodeTableWord 0 0 = some (.nop 0) := by decide

theorem test_encode : encode (.sto 2) = [0x42#8] ∧ encode (.unrF 15) = [0xFF#8] := by decide

/-! ### Well-formedness: the one check, and a term it refuses -/

/-- R41: 17 bytes do not fit, 16 do. -/
theorem test_image_fits :
    imageFits (List.replicate 17 0x00#8) = false ∧ imageFits (List.replicate 16 0x00#8) = true := by decide

/-- R57, R58: an ignored operand may be anything. -/
theorem test_ignored_operand_is_well_formed : (Instr.hlt 12).wellFormed = true := rfl

/-! ### One step each -/

/-- V3: the PC wraps. -/
theorem test_nop : (after (stateOf 15 0x03 [(15, 0x05)])).pc = 0 := by decide
/-- V2: the operand is ignored but latched. -/
theorem test_nop_latches : (after (stateOf 7 0x09 [(7, 0x0F)])).ir = 0x0F ∧ (after (stateOf 7 0x09 [(7, 0x0F)])).pc = 8 := by
  decide
/-- V11: the whole byte is loaded. -/
theorem test_lda_whole_byte : (after (stateOf 0 0x00 [(0, 0x1F), (15, 0xAB)])).acc = 0xAB := by decide
/-- V12: LDA from its own address. -/
theorem test_lda_itself : (after (stateOf 3 0x00 [(3, 0x13)])).acc = 0x13 := by decide
/-- V21: 15 + 1 wraps. -/
theorem test_add_wraps : (after (stateOf 5 0x0F [(1, 0x01), (5, 0x21)])).acc = 0x00 := by decide
/-- V24: upper nibbles are ignored. -/
theorem test_add_upper_nibbles : (after (stateOf 0 0xA7 [(0, 0x2A), (10, 0x5C)])).acc = 0x03 := by decide
/-- V31: 0 - 1 wraps. -/
theorem test_sub_wraps : (after (stateOf 7 0x00 [(7, 0x3A), (10, 0x01)])).acc = 0x0F := by decide
/-- V34: upper nibbles are ignored, ACC minus memory. -/
theorem test_sub_upper_nibbles : (after (stateOf 7 0x13 [(7, 0x3A), (10, 0xF5)])).acc = 0x0E := by decide
/-- V17: all 8 bits are stored. -/
theorem test_sto_whole_byte : (after (stateOf 1 0xAB [(1, 0x4E)])).memRead 14 = 0xAB := by decide
/-- V15: STO onto itself runs the old byte. -/
theorem test_sto_itself :
    (after (stateOf 6 0x05 [(6, 0x46)])).memRead 6 = 0x05 ∧ (after (stateOf 6 0x05 [(6, 0x46)])).ir = 0x46 := by decide
/-- V42: all 8 bits are emitted. -/
theorem test_out_whole_byte : (after (stateOf 3 0xAB [(3, 0x50)])).trace = [.out 0xAB] := by decide
/-- V41: a zero is emitted too, the operand ignored. -/
theorem test_out_zero : (after (stateOf 3 0x00 [(3, 0x5F)])).outValues = [0x00] := by decide
/-- V53: JMP 15 from 0. -/
theorem test_jmp : (after (stateOf 0 0x00 [(0, 0x6F)])).pc = 15 := by decide
/-- V51: JMP to itself. -/
theorem test_jmp_itself : (after (stateOf 5 0x00 [(5, 0x65)])).pc = 5 := by decide
/-- V71: HLT at 15 with operand bits. -/
theorem test_hlt :
    (after (stateOf 15 0x02 [(15, 0x7C)])).halt = true ∧ (after (stateOf 15 0x02 [(15, 0x7C)])).pc = 15 := by decide
/-- V81: a tick while halted fetches nothing. -/
theorem test_halted_tick :
    after { stateOf 4 0x03 [(4, 0x50)] with ir := 0x70, halt := true } =
      { stateOf 4 0x03 [(4, 0x50)] with ir := 0x70, halt := true } := by decide
/-- V63: equal at 15 skips to 1. -/
theorem test_cmp_skip_wraps : (after (stateOf 15 0x00 [(15, 0x83)])).pc = 1 := by decide
/-- V65: the upper nibble takes part. -/
theorem test_cmp_upper_nibble : (after (stateOf 8 0x05 [(3, 0x15), (8, 0x83)])).pc = 9 := by decide
/-- V4. -/
theorem test_unr9 : (after (stateOf 2 0x04 [(2, 0x90)])).trace = [.diag 0x9] := by decide
/-- V7. -/
theorem test_unrA : (after (stateOf 1 0x01 [(1, 0xA0)])).trace = [.diag 0xA] := by decide
/-- The worked example of R81. -/
theorem test_unrB : (after (stateOf 4 0x03 [(4, 0xB7)])).trace = [.diag 0xB] := by decide
/-- V6. -/
theorem test_unrC : (after (stateOf 9 0x00 [(9, 0xC3)])).trace = [.diag 0xC] := by decide
/-- The shape of V4 to V7 for 0xD_. -/
theorem test_unrD : (after (stateOf 9 0x00 [(9, 0xD0)])).diagOpcodes = [0xD] := by decide
/-- The shape of V4 to V7 for 0xE_. -/
theorem test_unrE : (after (stateOf 9 0x00 [(9, 0xEF)])).pc = 10 := by decide
/-- V5: the PC wraps. -/
theorem test_unrF : (after (stateOf 15 0x0A [(15, 0xFF)])).pc = 0 ∧ (after (stateOf 15 0x0A [(15, 0xFF)])).acc = 0x0A := by
  decide

/-- A byte placed for the fetch is the instruction the next step runs. -/
theorem test_with_fetch_word : (after (State.reset.withFetchWord 8 0x6F)).pc = 15 := by decide

/-! ### The boundary -/

/-- L2, L8 and L0: an image, the first cycle over zero memory, a reset. -/
theorem test_launch : (launch [0x50, 0x70]).memRead 1 = 0x70 ∧ (launch [0x50, 0x70]).memRead 2 = 0x00 ∧
    (after State.reset).pc = 1 := by decide

/-- A write of what an unlisted cell holds takes the entry away. -/
theorem test_memory_canonical :
    Memory.write (Memory.write [] 9 0x05) 9 0x00 = [] ∧
      Memory.write (Memory.write [] 9 0x05) 2 0x07 = [(2, 0x07), (9, 0x05)] := by decide

/-- L4: other characters are skipped. -/
theorem test_text_image :
    imageCells (imageBits ['0', '1', '0', '1', ' ', '0', '0', '0', '0', '\n', '0', '1', '1', '1', '-', '0', '0', '0', '0', '#',
      's']) = [0x50, 0x70] := by decide

/-- The values of the output line's digits: 0x0E and 0xAB (44_output.md's worked example, V42). -/
theorem test_hex_text : hexText false false 0x0E = "e" ∧ hexText true true 0xAB = "AB" := by decide

/-- The control row of CMP (R71). -/
theorem test_control_cmp : (Control.ofOpcode 0x8).nextPc = .skipIfEqual ∧ (Control.ofOpcode 0x8).accWrite = none := by decide

/-! ### Witnesses: every statement's hypotheses can be met -/

/-- A state about to run the byte given, at address 8, with ACC 5 and cell 3 holding 5. -/
def at8 (byte : Byte) : State := stateOf 8 0x05 [(3, 0x05), (8, byte)]

/-- The halted state that an HLT at address 9 leaves. -/
def halted9 : State := after (stateOf 9 0x0F [(9, 0x70)])

theorem halted9_inv : halted9.Inv where
  memory := by show Memory.wf _; decide
  halted := by intro _; decide
  diag := by show ∀ op ∈ halted9.diagOpcodes, _; decide

theorem witness_DecodeAndEncodeAgree : (Instr.cmp 15).wellFormed = true ∧ (Instr.nop 0).wellFormed = true := ⟨rfl, rfl⟩

theorem witness_IgnoredOperandBitsDoNothing :
    (∀ op ∈ [0x0#4, 0x5#4, 0x7#4, 0x9#4, 0xF#4], op = 0x0#4 ∨ op = 0x5#4 ∨ op = 0x7#4 ∨ 9 ≤ op.toNat) ∧
      (0x00#8).toNat ≤ 0x0F ∧ (0x0F#8).toNat ≤ 0x0F := by decide

theorem witness_NopOnlyAdvancesPc : State.reset.halt = false ∧ ∀ a : Addr, State.reset.memRead a = 0x00#8 := by decide

theorem witness_CmpSkipsOnEquality :
    (at8 0x83).acc = (at8 0x83).memRead 3 ∧ (at8 0x83).acc ≠ (at8 0x83).memRead 8 := by decide

theorem witness_UnrecognizedOpcodesAreNoOps :
    (Instr.unr9 10, 9) ∈ [(Instr.unr9 10, 9), (.unrA 10, 10), (.unrB 10, 11), (.unrC 10, 12), (.unrD 10, 13), (.unrE 10, 14),
      (.unrF 10, 15)] ∧
    (Instr.unrF 15, 15) ∈ [(Instr.unr9 15, 9), (.unrA 15, 10), (.unrB 15, 11), (.unrC 15, 12), (.unrD 15, 13), (.unrE 15, 14),
      (.unrF 15, 15)] := by decide

theorem witness_StepRunsTheDecodedInstruction :
    decode ((at8 0x83).memRead (at8 0x83).pc :: []) = .ok (.cmp 3, []) ∧ (Instr.cmp 3).wellFormed = true ∧
      (at8 0x83).halt = false ∧
      decode (halted9.memRead halted9.pc :: []) = .ok (.hlt 0, []) ∧ (Instr.hlt 0).wellFormed = true ∧ halted9.halt = true := by
  exact ⟨rfl, rfl, rfl, rfl, rfl, rfl⟩

theorem witness_FetchIsTheOnlyWriterOfIr :
    (at8 0x83).halt = false ∧ step (at8 0x83) = .next (after (at8 0x83)) ∧
      exec (.jmp 3) (at8 0x63) = .next ((at8 0x63).setPc 3) := ⟨rfl, rfl, rfl⟩

theorem witness_IrIsNeverAnInput :
    exec (.jmp 3) (at8 0x63) = .next ((at8 0x63).setPc 3) ∧ (at8 0x63).halt = false := ⟨rfl, rfl⟩

theorem witness_EveryStateHasOneSuccessor : halted9.halt = true := rfl

theorem witness_HaltedMachineStaysAsItIs : halted9.halt = true := rfl

/-- HALT rises, stays up, stays down. -/
theorem witness_HaltRisesByHltAlone :
    step (at8 0x70) = .next (after (at8 0x70)) ∧ step halted9 = .next halted9 ∧ step (at8 0x50) = .next (after (at8 0x50)) :=
  ⟨rfl, rfl, rfl⟩

/-- One running step for each row of the PC's table: JMP, HLT, CMP that skips, CMP that does not, NOP. -/
theorem witness_PcFollowsTheUpdateTable :
    ∀ byte ∈ [0x63#8, 0x70#8, 0x83#8, 0x88#8, 0x00#8],
      (at8 byte).halt = false ∧ step (at8 byte) = .next (after (at8 byte)) := by
  simp only [List.forall_mem_cons]
  exact ⟨⟨rfl, rfl⟩, ⟨rfl, rfl⟩, ⟨rfl, rfl⟩, ⟨rfl, rfl⟩, ⟨rfl, rfl⟩, fun _ h => nomatch h⟩

theorem witness_PcWrapsSilently :
    ((stateOf 15 0 []).pc = 15#4 ∧ (Instr.out 0).opcode ≠ 0b0110#4 ∧ (Instr.out 0).opcode ≠ 0b0111#4 ∧
      (Instr.out 0).opcode ≠ 0b1000#4) ∧
    ((stateOf 14 0 []).acc = (stateOf 14 0 []).memRead 3 ∧ (stateOf 14 0 []).pc = 14#4) ∧
    ((stateOf 15 0 []).acc = (stateOf 15 0 []).memRead 3 ∧ (stateOf 15 0 []).pc = 15#4) ∧
    exec (.jmp 3) (at8 0x63) = .next ((at8 0x63).setPc 3) :=
  ⟨by decide, by decide, by decide, rfl⟩

/-- One running step for each row of ACC's table: LDA, ADD, SUB, another. -/
theorem witness_AccFollowsTheWriteTable :
    ∀ byte ∈ [0x13#8, 0x23#8, 0x33#8, 0x50#8],
      (at8 byte).halt = false ∧ step (at8 byte) = .next (after (at8 byte)) := by
  simp only [List.forall_mem_cons]
  exact ⟨⟨rfl, rfl⟩, ⟨rfl, rfl⟩, ⟨rfl, rfl⟩, ⟨rfl, rfl⟩, fun _ h => nomatch h⟩

/-- A STO and another instruction. -/
theorem witness_StoIsTheOnlyMemoryWriter :
    ((at8 0x48).halt = false ∧ step (at8 0x48) = .next (after (at8 0x48))) ∧
      (at8 0x13).halt = false ∧ step (at8 0x13) = .next (after (at8 0x13)) := ⟨⟨rfl, rfl⟩, rfl, rfl⟩

/-- An OUT, the first and the last unrecognized opcode, and CMP just below them. -/
theorem witness_CycleEmitsAtMostOneEvent :
    ∀ byte ∈ [0x50#8, 0x90#8, 0xFF#8, 0x8F#8],
      (at8 byte).halt = false ∧ step (at8 byte) = .next (after (at8 byte)) := by
  simp only [List.forall_mem_cons]
  exact ⟨⟨rfl, rfl⟩, ⟨rfl, rfl⟩, ⟨rfl, rfl⟩, ⟨rfl, rfl⟩, fun _ h => nomatch h⟩

theorem witness_StepKeepsTheInvariant : halted9.Inv ∧ step halted9 = .next halted9 := ⟨halted9_inv, rfl⟩

/-- The invariant is met by a running state with a STO to execute, too. -/
theorem witness_StepKeepsTheInvariant_running : (at8 0x42).Inv ∧ step (at8 0x42) = .next (after (at8 0x42)) :=
  ⟨{ memory := by show Memory.wf _; decide
     halted := fun h => nomatch h
     diag := by show ∀ op ∈ (at8 0x42).diagOpcodes, _; decide }, rfl⟩

theorem witness_UngatedHaltedCycleChangesNothing : halted9.Inv ∧ halted9.halt = true := ⟨halted9_inv, rfl⟩

theorem witness_EventRecordIsNeverRead : step (at8 0x50) = .next (after (at8 0x50)) := rfl

/-- Two states with one snapshot that are not equal: their event records differ. -/
theorem witness_SnapshotDeterminesTheCycle :
    SameSnapshot (at8 0x50) ((at8 0x50).emit (.out 1)) ∧ step (at8 0x50) = .next (after (at8 0x50)) ∧
      step ((at8 0x50).emit (.out 1)) = .next (after ((at8 0x50).emit (.out 1))) := ⟨rfl, rfl, rfl⟩

theorem witness_UpperNibblesDoNotReachTheAlu :
    (0xA7#8).toNat % 16 = (0x07#8).toNat % 16 ∧ (0x5C#8).toNat % 16 = (0x0C#8).toNat % 16 := by decide

/-- An LDA of a small cell, and a STO of a small ACC. -/
theorem witness_SmallAccumulatorStaysSmall :
    ∀ byte ∈ [0x13#8, 0x42#8], (at8 byte).acc.toNat < 16 ∧
      (opcodeOf ((at8 byte).memRead (at8 byte).pc) = 0b0001#4 →
        ((at8 byte).memRead (operandOf ((at8 byte).memRead (at8 byte).pc))).toNat < 16) ∧
      step (at8 byte) = .next (after (at8 byte)) := by
  simp only [List.forall_mem_cons]
  exact ⟨⟨by decide, by decide, rfl⟩, ⟨by decide, by decide, rfl⟩, fun _ h => nomatch h⟩

/-- At address 8, and at 15 where the next cell is cell 0. -/
theorem witness_StoreIsSeenByTheNextFetch :
    ((at8 0x49).halt = false ∧ (at8 0x49).memRead (at8 0x49).pc = encodeFields 0b0100#4 ((at8 0x49).pc + 1#4) ∧
      step (at8 0x49) = .next (after (at8 0x49))) ∧
    (stateOf 15 0x70 [(15, 0x40)]).halt = false ∧
      (stateOf 15 0x70 [(15, 0x40)]).memRead 15 = encodeFields 0b0100#4 (15#4 + 1#4) ∧
      step (stateOf 15 0x70 [(15, 0x40)]) = .next (after (stateOf 15 0x70 [(15, 0x40)])) := ⟨⟨rfl, rfl, rfl⟩, rfl, rfl, rfl⟩

/-- STO, LDA, ADD, SUB and CMP at address 8 with operand 8. -/
theorem witness_OwnAddressAsOperand :
    ∀ op ∈ [0b0100#4, 0b0001#4, 0b0010#4, 0b0011#4, 0b1000#4],
      (at8 (encodeFields op 8)).halt = false ∧
        (at8 (encodeFields op 8)).memRead (at8 (encodeFields op 8)).pc = encodeFields op (at8 (encodeFields op 8)).pc := by
  decide

theorem witness_CanonicalMemoryIsItsContent :
    Memory.wf [(3, 0x05#8)] ∧ ∀ a : Addr, Memory.read [(3, 0x05#8)] a = Memory.read (Memory.write [] 3 0x05#8) a := by decide

theorem witness_StoringTheOldValueChangesNothing : Memory.wf [(3, 0x05#8), (9, 0x01#8)] := by decide

theorem witness_ResetAndLoadLeaveTheLaunchState :
    ([] : List Byte).length ≤ 16 ∧ (List.replicate 16 0xFF#8).length ≤ 16 := by decide

theorem witness_LoadWritesTheImageOrIsRefused :
    (List.replicate 16 0xFF#8).length ≤ 16 ∧ 16 < (List.replicate 17 0xFF#8).length := by decide

theorem witness_OnlyResetClearsHalt :
    hostMove (.running halted9) .tick = .next (.running halted9) ∧ (Session.running halted9).halted = true ∧
      HostMove.tick ≠ .reset := ⟨rfl, rfl, nofun⟩

/-- One move of each kind from a session that meets the invariant. -/
theorem witness_HostMovesKeepTheSessionInvariant :
    (Session.unbooted.Inv ∧ hostMove .unbooted .reset = .next (.booted State.reset)) ∧
    ((Session.booted State.reset).Inv ∧ hostMove (.booted State.reset) (.load [0x50]) = .next (.loaded (launch [0x50]))) ∧
    ((Session.running halted9).Inv ∧ hostMove (.running halted9) .tick = .next (.running halted9)) :=
  ⟨⟨trivial, rfl⟩, ⟨rfl, rfl⟩, halted9_inv, rfl⟩

theorem witness_EveryReachableMachineIsSound :
    hostMoves .unbooted [.reset, .load [0x50], .tick] = .next (.running (after (launch [0x50]))) ∧
      (Session.running (after (launch [0x50]))).state? = some (after (launch [0x50])) := ⟨rfl, rfl⟩

theorem witness_PinsCarryTheCyclesEvent :
    ({ PinsIn.idle with tick := true } : PinsIn).rst = false ∧ ({ PinsIn.idle with tick := true } : PinsIn).tick = true ∧
      ({ PinsIn.idle with tick := true } : PinsIn).loadWe = false := ⟨rfl, rfl, rfl⟩

/-- An enabled cycle whose `diag_valid` is 1, and one whose `out_valid` is 1. -/
theorem test_pins_valid :
    ((stateOf 9 0x00 [(9, 0xD0)]).pins { PinsIn.idle with tick := true }).diagOpcode = 0xD#4 ∧
    ((stateOf 9 0x2A [(9, 0x50)]).pins { PinsIn.idle with tick := true }).outValid = true ∧
    ((stateOf 9 0x2A [(9, 0x50)]).pins { PinsIn.idle with tick := true }).outData = 0x2A#8 := by decide

theorem witness_PinLoadGivesTheLaunchState : (List.replicate 16 0xFF#8).length ≤ 16 := by decide

/-- A text of each kind: 16 bits and a partial byte; 128, 129, 135 and 136 bits. -/
theorem witness_TextImageGivesItsCells :
    ((imageBits (List.replicate 20 '1')).length ≤ 128 ∧ 1 < (imageBits (List.replicate 20 '1')).length / 8 ∧ 7 < 8) ∧
    (imageBits (List.replicate 128 '0')).length ≤ 128 ∧
    (128 < (imageBits (List.replicate 129 '0')).length ∧ (imageBits (List.replicate 129 '0')).length < 136) ∧
    (128 < (imageBits (List.replicate 135 '0')).length ∧ (imageBits (List.replicate 135 '0')).length < 136) ∧
    136 ≤ (imageBits (List.replicate 136 '0')).length := by
  decide +kernel

end Sys2Proof.Tests
end

/-! ### What one instruction does (spec/40_cycle.md R69, spec/10_state.md R16)

An instruction's effect in two independent parts: the PC it leaves, and what it does to everything else. -/

namespace Sys2Proof.Machine

/-- The PC an instruction leaves (R16's update table). -/
def nextPcOf (i : Instr) (s : State) : Addr :=
  match i with
  | .jmp a => a
  | .hlt _ => s.pc
  | .cmp a => if s.acc = s.memRead a then pcPlus s.pc 2 else pcPlus s.pc 1
  | .nop _ | .lda _ | .add _ | .sub _ | .sto _ | .out _
  | .unr9 _ | .unrA _ | .unrB _ | .unrC _ | .unrD _ | .unrE _ | .unrF _ => pcPlus s.pc 1

/-- What an instruction does to the state apart from the PC, which it keeps here. -/
def effectOf (i : Instr) (s : State) : State :=
  match i with
  | .nop _ | .jmp _ | .cmp _ => s
  | .lda a => s.setAcc (s.memRead a)
  | .add a => s.setAcc (addResult s.acc (s.memRead a))
  | .sub a => s.setAcc (subResult s.acc (s.memRead a))
  | .sto a => s.memWrite a s.acc
  | .out _ => s.emit (.out s.acc)
  | .hlt _ => s.setHalt
  | .unr9 _ | .unrA _ | .unrB _ | .unrC _ | .unrD _ | .unrE _ | .unrF _ => s.emit (.diag i.opcode)

theorem execCmp_eq (a : Addr) (s : State) : execCmp a s = .next (s.setPc (nextPcOf (.cmp a) s)) := by
  by_cases h : s.acc = s.memRead a <;> simp [execCmp, nextPcOf, cmpEqual_iff, h, State.advance]

/-- Every instruction answers a next state: its effect, and then its PC. -/
theorem exec_eq (i : Instr) (s : State) : exec i s = .next ((effectOf i s).setPc (nextPcOf i s)) := by
  cases i
  case cmp a => exact execCmp_eq a s
  all_goals rfl

theorem nextPcOf_sequential {i : Instr} (s : State) (hjmp : i.opcode ≠ 0b0110#4) (hhlt : i.opcode ≠ 0b0111#4)
    (hcmp : i.opcode ≠ 0b1000#4) : nextPcOf i s = pcPlus s.pc 1 := by
  cases i
  case jmp => exact absurd rfl hjmp
  case hlt => exact absurd rfl hhlt
  case cmp => exact absurd rfl hcmp
  all_goals rfl

theorem nextPcOf_cmp_of_equal {s : State} {a : Addr} (h : s.acc = s.memRead a) :
    nextPcOf (.cmp a) s = pcPlus s.pc 2 := if_pos h

/-- Apart from the PC, an instruction does the same at every PC. -/
theorem effectOf_setPc (i : Instr) (s : State) (p : Addr) : effectOf i (s.setPc p) = (effectOf i s).setPc p := by
  cases i <;> rfl

theorem exec_setPc_eq_but_for_pc {i : Instr} {s t : State} (p : Addr) (h : exec i s = .next t) :
    ∃ u, exec i (s.setPc p) = .next u ∧ u = t.setPc u.pc := by
  rw [exec_eq] at h
  cases h
  exact ⟨_, exec_eq i (s.setPc p), by rw [effectOf_setPc]; rfl⟩

end Sys2Proof.Machine

section
open Sys2Proof Sys2Proof.Machine

/-- Settles O23: the three wraps are the PC's arithmetic modulo 16 at 15, 14 and 15, and the rest of an instruction's effect
commutes with setting the PC. -/
theorem pcWrapsSilently : Obligations.PcWrapsSilently := by
  refine ⟨fun s i hpc hjmp hhlt hcmp => ⟨_, exec_eq i s, ?_⟩,
    fun s a heq => ⟨fun hpc => ⟨_, exec_eq _ s, ?_⟩, fun hpc => ⟨_, exec_eq _ s, ?_⟩⟩,
    fun i s t p h => exec_setPc_eq_but_for_pc p h⟩
  · rw [State.setPc_pc, nextPcOf_sequential s hjmp hhlt hcmp, hpc]; decide
  · rw [State.setPc_pc, nextPcOf_cmp_of_equal heq, hpc]; decide
  · rw [State.setPc_pc, nextPcOf_cmp_of_equal heq, hpc]; decide

end

/-! ### What memory reads after a load (spec/20_memory.md R41) -/

namespace Sys2Proof.Machine

/-- Bytes written from cell `i` upward stand in the cells from `i` on, as far as they reach; every other cell reads as
before. The bytes must end within the memory, or they would wrap onto its first cells. -/
theorem Memory.read_loadFrom (image : List Byte) (a : Addr) : ∀ (i : Nat) (m : Memory), i + image.length ≤ 16 →
    (Memory.loadFrom i image m).read a = if i ≤ a.toNat then image.getD (a.toNat - i) (m.read a) else m.read a := by
  induction image with
  | nil => simp [Memory.loadFrom]
  | cons b rest ih =>
    intro i m hlen
    rw [List.length_cons] at hlen
    have hcell : a = BitVec.ofNat 4 i ↔ a.toNat = i := by
      rw [← BitVec.toNat_inj, BitVec.toNat_ofNat, Nat.mod_eq_of_lt (by omega)]
    rw [Memory.loadFrom, ih (i + 1) _ (by omega), Memory.read_write]
    simp only [hcell]
    rcases lt_trichotomy a.toNat i with hlt | heq | hgt
    · simp [hlt.ne, not_le.2 hlt, not_le.2 (Nat.lt_succ_of_lt hlt)]
    · simp [heq]
    · obtain ⟨k, hk⟩ := Nat.exists_eq_add_of_lt hgt
      have hold : a.toNat - i = k + 1 := by omega
      have hnew : a.toNat - (i + 1) = k := by omega
      simp [hold, hnew, hgt.ne', hgt.le, Nat.succ_le_of_lt hgt]

/-- After a load of at most 16 bytes the first cells hold the image and the others what they held (R41). -/
theorem Memory.read_load (m : Memory) {image : List Byte} (hlen : image.length ≤ 16) (a : Addr) :
    (m.load image).read a = image.getD a.toNat (m.read a) := by
  rw [Memory.load, Memory.read_loadFrom image a 0 m (by omega)]
  simp

theorem State.memRead_reset (a : Addr) : State.reset.memRead a = 0x00#8 := rfl

theorem memRead_launch {image : List Byte} (hlen : image.length ≤ 16) (a : Addr) :
    (launch image).memRead a = image.getD a.toNat 0x00#8 :=
  Memory.read_load State.reset.mem hlen a

end Sys2Proof.Machine

section
open Sys2Proof Sys2Proof.Machine

/-- Settles O40: memory after the load by induction on the image, the registers by the launch state's definition. -/
theorem resetAndLoadLeaveTheLaunchState : Obligations.ResetAndLoadLeaveTheLaunchState :=
  ⟨State.memRead_reset, rfl, rfl, rfl, rfl, fun _ hlen => ⟨memRead_launch hlen, rfl, rfl, rfl, rfl⟩⟩

end

/-! ### Bytes, fields and instructions (spec/30_encoding.md R50 to R58)

Two bijections, composed: a byte is its two fields, and an instruction is its opcode and operand. -/

namespace Sys2Proof

/-- The fields as R51's shifts and masks. -/
theorem opcodeOf_toNat_eq_shift_mask (byte : Byte) : (opcodeOf byte).toNat = (byte.toNat >>> 4) &&& 0xF := by
  rw [opcodeOf, BitVec.extractLsb'_toNat]
  exact (Nat.and_two_pow_sub_one_eq_mod _ 4).symm

theorem operandOf_toNat_eq_mask (byte : Byte) : (operandOf byte).toNat = byte.toNat &&& 0xF := by
  rw [operandOf_toNat]
  exact (Nat.and_two_pow_sub_one_eq_mod _ 4).symm

/-- The byte of two fields as R52's shift and or. -/
theorem encodeFields_toNat (op n : Nibble) : (encodeFields op n).toNat = (op.toNat <<< 4) ||| n.toNat :=
  BitVec.toNat_append op n

/-- A byte is the concatenation of its two fields. -/
@[simp] theorem encodeFields_opcodeOf_operandOf (byte : Byte) : encodeFields (opcodeOf byte) (operandOf byte) = byte :=
  (BitVec.extractLsb'_append_extractLsb'_eq_extractLsb' rfl).trans BitVec.extractLsb'_eq_self

@[simp] theorem instrOf_opcode_operand (i : Instr) : instrOf i.opcode i.operand = i := by
  cases i <;> rfl

/-- The opcode map, row by row, selects an instruction that is encoded with the very opcode and operand. -/
theorem opcode_operand_instrOf (op n : Nibble) : (instrOf op n).opcode = op ∧ (instrOf op n).operand = n := by
  rcases opcode_cases op with
    rfl | rfl | rfl | rfl | rfl | rfl | rfl | rfl | rfl | rfl | rfl | rfl | rfl | rfl | rfl | rfl <;>
    exact ⟨rfl, rfl⟩

theorem decodeByte_encodeFields (op n : Nibble) : decodeByte (encodeFields op n) = instrOf op n := by
  simp [decodeByte]

@[simp] theorem decodeByte_encodeByte (i : Instr) : decodeByte (encodeByte i) = i := by
  rw [encodeByte, decodeByte_encodeFields, instrOf_opcode_operand]

@[simp] theorem encodeByte_decodeByte (byte : Byte) : encodeByte (decodeByte byte) = byte := by
  obtain ⟨hop, hn⟩ := opcode_operand_instrOf (opcodeOf byte) (operandOf byte)
  rw [encodeByte, decodeByte, hop, hn, encodeFields_opcodeOf_operandOf]

theorem decode_cons (byte : Byte) (rest : List Byte) : decode (byte :: rest) = .ok (decodeByte byte, rest) := rfl

theorem decode_encode_append (i : Instr) (rest : List Byte) : decode (encode i ++ rest) = .ok (i, rest) := by
  rw [encode, List.singleton_append, decode_cons, decodeByte_encodeByte]

/-- The bytes below 0x10 are the encodings of NOP (R57). -/
theorem decodeByte_of_toNat_lt {byte : Byte} (h : byte.toNat < 16) : decodeByte byte = .nop (operandOf byte) := by
  have hop : opcodeOf byte = 0b0000#4 :=
    BitVec.eq_of_toNat_eq ((opcodeOf_toNat byte).trans (Nat.div_eq_of_lt h))
  rw [decodeByte, hop]
  rfl

end Sys2Proof

namespace Sys2Proof.Machine

/-- Opcodes 9 to 15 follow the common rule of the unrecognized opcodes, whatever the operand (R57, R81). -/
theorem exec_instrOf_unrecognized {op : Nibble} (h : 9 ≤ op.toNat) (n : Nibble) (s : State) :
    exec (instrOf op n) s = unrecognized op s := by
  have hrow : op = 0x9#4 ∨ op = 0xA#4 ∨ op = 0xB#4 ∨ op = 0xC#4 ∨ op = 0xD#4 ∨ op = 0xE#4 ∨ op = 0xF#4 := by
    revert op; decide
  rcases hrow with rfl | rfl | rfl | rfl | rfl | rfl | rfl <;> rfl

/-- NOP, OUT, HLT and the unrecognized opcodes do the same for every operand (R57). -/
theorem exec_instrOf_ignores_operand {op : Nibble} (h : op = 0x0#4 ∨ op = 0x5#4 ∨ op = 0x7#4 ∨ 9 ≤ op.toNat)
    (x y : Nibble) (s : State) : exec (instrOf op x) s = exec (instrOf op y) s := by
  rcases h with rfl | rfl | rfl | h
  case inr.inr.inr => rw [exec_instrOf_unrecognized h, exec_instrOf_unrecognized h]
  all_goals rfl

end Sys2Proof.Machine

section
open Sys2Proof Sys2Proof.Machine

/-- Settles O2: the fields are a bijection of bytes, the opcode map one of instructions, and decoding and encoding
compose them. -/
theorem decodeAndEncodeAgree : Obligations.DecodeAndEncodeAgree :=
  ⟨fun op n => ⟨encodeFields_toNat op n, opcodeOf_encodeFields op n, operandOf_encodeFields op n⟩,
    encodeFields_opcodeOf_operandOf,
    fun i rest _ => decode_encode_append i rest,
    fun byte rest => ⟨decodeByte byte, decode_cons byte rest, congrArg (· :: []) (encodeByte_decodeByte byte)⟩⟩

/-- Settles O4: a byte is the instruction `decodeByte` gives, and every instruction answers a next state. -/
theorem everyByteExecutes : Obligations.EveryByteExecutes :=
  fun byte s => ⟨decodeByte byte, _, decode_cons byte [], exec_eq _ s⟩

/-- Settles O5: the fields select the instruction, and the rules of these opcodes do not take the operand. -/
theorem ignoredOperandBitsDoNothing : Obligations.IgnoredOperandBitsDoNothing := by
  refine ⟨fun op x y s h => ?_, fun byte h => ⟨_, decodeByte_of_toNat_lt (Nat.lt_succ_of_le h)⟩⟩
  simpa only [decodeByte_encodeFields] using exec_instrOf_ignores_operand h x y s

/-- Settles O1: the fields are `extractLsb'`, which is a shift and a mask, and decoding reads the head alone. -/
theorem decodeSplitsEveryByte : Obligations.DecodeSplitsEveryByte :=
  fun byte => ⟨opcodeOf_toNat_eq_shift_mask byte, operandOf_toNat_eq_mask byte, decode_cons byte⟩

end

/-! ### The fetch and IR (spec/40_cycle.md R67)

No instruction's effect touches IR, so after a cycle it holds what the fetch put there. -/

namespace Sys2Proof.Machine

@[simp] theorem effectOf_ir (i : Instr) (s : State) : (effectOf i s).ir = s.ir := by
  cases i <;> rfl

/-- No instruction writes IR (R67). -/
theorem exec_keeps_ir {i : Instr} {s t : State} (h : exec i s = .next t) : t.ir = s.ir := by
  rw [exec_eq] at h
  cases h
  rw [State.setPc_ir, effectOf_ir]

/-- An executed cycle leaves the fetched byte in IR (R67). -/
theorem step_ir_of_running {s t : State} (hrun : s.halt = false) (h : step s = .next t) : t.ir = s.fetch := by
  rw [step_of_running hrun] at h
  rw [exec_keeps_ir h, State.fetched_ir]

end Sys2Proof.Machine

section
open Sys2Proof Sys2Proof.Machine

/-- Settles O17: the fetch puts the cell at PC into IR, and the instruction executed after it keeps IR. -/
theorem fetchIsTheOnlyWriterOfIr : Obligations.FetchIsTheOnlyWriterOfIr :=
  ⟨fun _ _ hrun h => step_ir_of_running hrun h, fun _ _ _ h => exec_keeps_ir h⟩

end

/-! ### NOP (spec/41_nop.md R80)

A byte written as sixteen times its opcode plus its operand decodes to the opcode's instruction; NOP's is to advance the PC. -/

namespace Sys2Proof

/-- The byte of two fields as the number the opcode table writes. -/
theorem encodeFields_eq_ofNat (op n : Nibble) : encodeFields op n = BitVec.ofNat 8 (16 * op.toNat + n.toNat) := by
  apply BitVec.eq_of_toNat_eq
  rw [encodeFields_toNat, ← Nat.shiftLeft_add_eq_or_of_lt n.isLt, Nat.shiftLeft_eq, BitVec.toNat_ofNat]
  omega

theorem decodeByte_ofNat (op n : Nibble) : decodeByte (BitVec.ofNat 8 (16 * op.toNat + n.toNat)) = instrOf op n := by
  rw [← encodeFields_eq_ofNat, decodeByte_encodeFields]

end Sys2Proof

namespace Sys2Proof.Machine

theorem State.advance_pc_toNat (s : State) : s.advance.pc.toNat = (s.pc.toNat + 1) % 16 := pcPlus_toNat s.pc 1

@[simp] theorem State.memRead_advance (s : State) (a : Addr) : s.advance.memRead a = s.memRead a :=
  State.memRead_congr s.advance_mem a

@[simp] theorem State.memRead_fetched (s : State) (a : Addr) : s.fetched.memRead a = s.memRead a :=
  State.memRead_congr s.fetched_mem a

theorem exec_nop (n : Nibble) (s : State) : exec (.nop n) s = .next s.advance := rfl

/-- The cycle of a running machine whose PC addresses a byte below 0x10: the fetch, and the PC's advance. -/
theorem step_of_fetch_lt {s : State} (hrun : s.halt = false) (hbyte : s.fetch.toNat < 16) :
    step s = .next s.fetched.advance := by
  rw [step_of_running hrun, decodeByte_of_toNat_lt hbyte, exec_nop]

end Sys2Proof.Machine

section
open Sys2Proof Sys2Proof.Machine

/-- Settles O6: opcode 0 is NOP's row, NOP answers the advanced state, and a cell that reads zero is such a NOP. -/
theorem nopOnlyAdvancesPc : Obligations.NopOnlyAdvancesPc := by
  refine ⟨decodeByte_ofNat 0#4,
    fun n s => ⟨_, exec_nop n s, s.advance_pc_toNat, rfl, rfl, rfl, rfl, s.memRead_advance⟩,
    fun s hrun hzero => ?_⟩
  have hfetch : s.fetch = 0x00#8 := hzero s.pc
  have hstep : step s = .next s.fetched.advance := step_of_fetch_lt hrun (by rw [hfetch]; decide)
  exact ⟨_, hstep, s.fetched.advance_pc_toNat, rfl, hfetch, hrun, rfl, fun a => by simp [hzero a]⟩

end

/-! ### ADD and SUB (spec/43_arithmetic.md R90 to R92)

Reduction modulo 16 commutes with sum and difference, so the masked result of the whole bytes is the 4-bit result of their
low nibbles; ADD and SUB put it into ACC and advance. -/

namespace Sys2Proof.Machine

@[simp] theorem lowNibble_toNat (v : Byte) : (lowNibble v).toNat = v.toNat % 16 := by
  simp [lowNibble]

/-- The sum's low 4 bits are the 4-bit sum of the low nibbles (R92). -/
theorem maskNat_add_toNat (x y : Byte) : maskNat (x.toNat + y.toNat) = lowNibble x + lowNibble y :=
  BitVec.eq_of_toNat_eq (by simp [BitVec.toNat_add])

/-- The difference's low 4 bits are the 4-bit difference of the low nibbles, the borrow dropped (R92). -/
theorem maskInt_sub_toNat (x y : Byte) : maskInt ((x.toNat : Int) - (y.toNat : Int)) = lowNibble x - lowNibble y := by
  apply BitVec.eq_of_toNat_eq
  have hmask := maskInt_toNat ((x.toNat : Int) - (y.toNat : Int))
  rw [BitVec.toNat_sub, lowNibble_toNat, lowNibble_toNat]
  omega

theorem addResult_eq_lowNibble_add (acc m : Byte) : addResult acc m = (lowNibble acc + lowNibble m).setWidth 8 :=
  congrArg zext8 (maskNat_add_toNat acc m)

theorem subResult_eq_lowNibble_sub (acc m : Byte) : subResult acc m = (lowNibble acc - lowNibble m).setWidth 8 :=
  congrArg zext8 (maskInt_sub_toNat acc m)

theorem exec_add (a : Addr) (s : State) :
    exec (.add a) s = .next (s.setAcc (addResult s.acc (s.memRead a))).advance := rfl

theorem exec_sub (a : Addr) (s : State) :
    exec (.sub a) s = .next (s.setAcc (subResult s.acc (s.memRead a))).advance := rfl

/-- What an instruction that writes ACC and advances does to everything but ACC. -/
theorem State.setAcc_advance_frame (s : State) (v : Byte) :
    (s.setAcc v).advance.pc.toNat = (s.pc.toNat + 1) % 16 ∧ (s.setAcc v).advance.ir = s.ir ∧
    (s.setAcc v).advance.halt = s.halt ∧ (s.setAcc v).advance.trace = s.trace ∧ SameMemory s (s.setAcc v).advance :=
  ⟨(s.setAcc v).advance_pc_toNat, rfl, rfl, rfl, fun a => State.memRead_congr (s := s) rfl a⟩

end Sys2Proof.Machine

section
open Sys2Proof Sys2Proof.Machine

/-- Settles O8: opcode 2 is ADD's row, and the sum reduced modulo 16 is the sum of the reduced low nibbles. -/
theorem addIsTheSumModuloSixteen : Obligations.AddIsTheSumModuloSixteen :=
  ⟨decodeByte_ofNat 0b0010#4, fun a s => ⟨_, exec_add a s, addResult_toNat s.acc (s.memRead a),
    addResult_eq_lowNibble_add s.acc (s.memRead a), s.setAcc_advance_frame _⟩⟩

/-- Settles O9: opcode 3 is SUB's row, and the integer difference reduced modulo 16 is the 4-bit difference of the low
nibbles. -/
theorem subIsTheDifferenceModuloSixteen : Obligations.SubIsTheDifferenceModuloSixteen :=
  ⟨decodeByte_ofNat 0b0011#4, fun a s => ⟨_, exec_sub a s, subResult_toNat s.acc (s.memRead a),
    subResult_eq_lowNibble_sub s.acc (s.memRead a), s.setAcc_advance_frame _⟩⟩

end

/-! ### JMP (spec/45_control_transfer.md R100)

JMP's whole effect is one write of the PC, whose value does not depend on the state. -/

namespace Sys2Proof.Machine

@[simp] theorem State.memRead_setPc (s : State) (target a : Addr) : (s.setPc target).memRead a = s.memRead a :=
  State.memRead_congr (s.setPc_mem target) a

theorem exec_jmp (a : Addr) (s : State) : exec (.jmp a) s = .next (s.setPc a) := rfl

end Sys2Proof.Machine

section
open Sys2Proof Sys2Proof.Machine

/-- Settles O12: opcode 6 is JMP's row, and JMP answers the state with the operand written to the PC, the write that keeps
every other element. -/
theorem jmpSetsPcToTheOperand : Obligations.JmpSetsPcToTheOperand :=
  ⟨decodeByte_ofNat 0b0110#4, fun a s => ⟨_, exec_jmp a s, s.setPc_pc a, s.setPc_acc a, s.setPc_ir a, s.setPc_halt a,
    s.setPc_trace a, s.memRead_setPc a⟩⟩

end

/-! ### A running cycle, element by element (spec/10_state.md R13, R16, R20; spec/40_cycle.md R74)

The tables of the spec, one per element of the state, each stated once by opcode: first of an instruction's effect, then of
a step of a running machine. No later proof splits over the instructions again. -/

namespace Sys2Proof

@[simp] theorem decodeByte_opcode (byte : Byte) : (decodeByte byte).opcode = opcodeOf byte :=
  (opcode_operand_instrOf (opcodeOf byte) (operandOf byte)).1

@[simp] theorem decodeByte_operand (byte : Byte) : (decodeByte byte).operand = operandOf byte :=
  (opcode_operand_instrOf (opcodeOf byte) (operandOf byte)).2

end Sys2Proof

namespace Sys2Proof.Machine

theorem nextPcOf_eq (i : Instr) (s : State) : nextPcOf i s =
    if i.opcode = 0b0110#4 then i.operand
    else if i.opcode = 0b0111#4 then s.pc
    else if i.opcode = 0b1000#4 ∧ s.acc = s.memRead i.operand then pcPlus s.pc 2
    else pcPlus s.pc 1 := by
  cases i
  case cmp a => by_cases h : s.acc = s.memRead a <;> simp [nextPcOf, Instr.opcode, Instr.operand, h]
  all_goals rfl

theorem effectOf_acc (i : Instr) (s : State) : (effectOf i s).acc =
    if i.opcode = 0b0001#4 then s.memRead i.operand
    else if i.opcode = 0b0010#4 then addResult s.acc (s.memRead i.operand)
    else if i.opcode = 0b0011#4 then subResult s.acc (s.memRead i.operand)
    else s.acc := by
  cases i <;> rfl

theorem effectOf_mem (i : Instr) (s : State) : (effectOf i s).mem =
    if i.opcode = 0b0100#4 then Memory.write s.mem i.operand s.acc else s.mem := by
  cases i <;> rfl

theorem effectOf_halt (i : Instr) (s : State) : (effectOf i s).halt = (s.halt || i.opcode == 0b0111#4) := by
  cases i
  case hlt => exact (Bool.or_true _).symm
  all_goals exact (Bool.or_false _).symm

theorem effectOf_trace (i : Instr) (s : State) : (effectOf i s).trace = s.trace ++
    if i.opcode = 0b0101#4 then [.out s.acc]
    else if 9 ≤ i.opcode.toNat then [.diag i.opcode]
    else [] := by
  cases i
  case out | unr9 | unrA | unrB | unrC | unrD | unrE | unrF => rfl
  all_goals exact (List.append_nil _).symm

section
variable {s t : State} (hrun : s.halt = false) (h : step s = .next t)
include hrun h

/-- Everything a running step can do: the decoded instruction's effect on the fetched state, and then its PC. -/
theorem step_next_of_running :
    t = (effectOf (decodeByte s.fetch) s.fetched).setPc (nextPcOf (decodeByte s.fetch) s.fetched) := by
  rw [step_of_running hrun, exec_eq] at h
  cases h
  rfl

/-- R16's table. -/
theorem step_pc_of_running : t.pc =
    if opcodeOf s.fetch = 0b0110#4 then operandOf s.fetch
    else if opcodeOf s.fetch = 0b0111#4 then s.pc
    else if opcodeOf s.fetch = 0b1000#4 ∧ s.acc = s.memRead (operandOf s.fetch) then pcPlus s.pc 2
    else pcPlus s.pc 1 := by
  simp [step_next_of_running hrun h, nextPcOf_eq]

/-- R13's table. -/
theorem step_acc_of_running : t.acc =
    if opcodeOf s.fetch = 0b0001#4 then s.memRead (operandOf s.fetch)
    else if opcodeOf s.fetch = 0b0010#4 then addResult s.acc (s.memRead (operandOf s.fetch))
    else if opcodeOf s.fetch = 0b0011#4 then subResult s.acc (s.memRead (operandOf s.fetch))
    else s.acc := by
  simp [step_next_of_running hrun h, effectOf_acc]

theorem step_mem_of_running : t.mem =
    if opcodeOf s.fetch = 0b0100#4 then Memory.write s.mem (operandOf s.fetch) s.acc else s.mem := by
  simp [step_next_of_running hrun h, effectOf_mem]

theorem step_halt_of_running : t.halt = (opcodeOf s.fetch == 0b0111#4) := by
  simp [step_next_of_running hrun h, effectOf_halt, hrun]

/-- R74's rule of events. -/
theorem step_trace_of_running : t.trace = s.trace ++
    if opcodeOf s.fetch = 0b0101#4 then [.out s.acc]
    else if 9 ≤ (opcodeOf s.fetch).toNat then [.diag (opcodeOf s.fetch)]
    else [] := by
  simp [step_next_of_running hrun h, effectOf_trace, -opcodeOf_toNat]

theorem step_memRead_of_running (a : Addr) : t.memRead a =
    if opcodeOf s.fetch = 0b0100#4 ∧ a = operandOf s.fetch then s.acc else s.memRead a := by
  rw [State.memRead, step_mem_of_running hrun h]
  by_cases hsto : opcodeOf s.fetch = 0b0100#4
  · simp [hsto, Memory.read_write, State.memRead]
  · simp [hsto, State.memRead]

/-- The diagnostic channel's part of the cycle's event. -/
theorem step_diagOpcodes_of_running : t.diagOpcodes =
    s.diagOpcodes ++ if 9 ≤ (opcodeOf s.fetch).toNat then [opcodeOf s.fetch] else [] := by
  rw [State.diagOpcodes, step_trace_of_running hrun h, List.filterMap_append]
  by_cases hout : opcodeOf s.fetch = 0b0101#4
  · rw [hout]; rfl
  · rw [if_neg hout]; split <;> rfl

/-- The output channel's part of the cycle's event. -/
theorem step_outValues_of_running : t.outValues =
    s.outValues ++ if opcodeOf s.fetch = 0b0101#4 then [s.acc] else [] := by
  rw [State.outValues, step_trace_of_running hrun h, List.filterMap_append]
  by_cases hout : opcodeOf s.fetch = 0b0101#4
  · rw [hout]; rfl
  · rw [if_neg hout, if_neg hout]; split <;> rfl

end

/-- Everything a halted step can do. -/
theorem step_next_of_halted {s t : State} (hhalt : s.halt = true) (h : step s = .next t) : t = s := by
  rw [step_of_halted hhalt] at h
  cases h
  rfl

/-- R20: HALT is 1 after a step where it was 1 before or the step runs an HLT. -/
theorem step_halt_iff {s t : State} (h : step s = .next t) :
    t.halt = true ↔ s.halt = true ∨ opcodeOf s.fetch = 0b0111#4 := by
  cases hs : s.halt with
  | true => simp [step_next_of_halted hs h, hs]
  | false => simp [step_halt_of_running hs h]

end Sys2Proof.Machine

section
open Sys2Proof Sys2Proof.Machine

/-- Settles O21: a halted step keeps HALT, and a running one sets it where the fetched opcode is HLT's. -/
theorem haltRisesByHltAlone : Obligations.HaltRisesByHltAlone :=
  fun _ _ h => step_halt_iff h

/-- Settles O22: the table of the running step, its rows read as numbers. -/
theorem pcFollowsTheUpdateTable : Obligations.PcFollowsTheUpdateTable := by
  intro s t hrun h
  simp only [step_pc_of_running hrun h, apply_ite BitVec.toNat, pcPlus_toNat]
  rfl

/-- Settles O24: the table of the running step, its rows read as numbers. -/
theorem accFollowsTheWriteTable : Obligations.AccFollowsTheWriteTable := by
  intro s t hrun h
  have hsub (m : Byte) : (subResult s.acc m).toNat = (((s.acc.toNat : Int) - (m.toNat : Int)) % 16).toNat := by
    rw [← subResult_toNat, Int.toNat_natCast]
  simp only [step_acc_of_running hrun h, apply_ite BitVec.toNat, addResult_toNat, hsub]
  rfl

/-- Settles O25: memory after a running step is one write for STO and unchanged for the others, read cell by cell. -/
theorem stoIsTheOnlyMemoryWriter : Obligations.StoIsTheOnlyMemoryWriter :=
  fun _ _ hrun h => step_memRead_of_running hrun h

/-- Settles O26: the table of the running step. -/
theorem cycleEmitsAtMostOneEvent : Obligations.CycleEmitsAtMostOneEvent :=
  fun _ _ hrun h => step_trace_of_running hrun h

end

/-! ### The machine's invariant (spec/40_cycle.md R76)

Each of its three parts is kept by every step; a boot meets all of them before its first tick. -/

namespace Sys2Proof.Machine

theorem step_keeps_memoryCanonical {s t : State} (hs : s.MemoryCanonical) (h : step s = .next t) :
    t.MemoryCanonical := by
  unfold State.MemoryCanonical at hs ⊢
  cases hrun : s.halt with
  | true => rwa [step_next_of_halted hrun h]
  | false =>
    rw [step_mem_of_running hrun h]
    split
    · exact Memory.wf_write hs _ _
    · exact hs

/-- A cycle that ends halted ran an HLT, which keeps memory and PC: the byte the fetch put into IR is still the one at
PC. -/
theorem step_keeps_haltCoherent {s t : State} (hs : s.HaltCoherent) (h : step s = .next t) : t.HaltCoherent := by
  cases hrun : s.halt with
  | true => rwa [step_next_of_halted hrun h]
  | false =>
    intro ht
    have hop : opcodeOf s.fetch = 0b0111#4 := by simpa [hrun] using (step_halt_iff h).1 ht
    have hpc : t.pc = s.pc := by simp [step_pc_of_running hrun h, hop]
    have hcell : t.memRead s.pc = s.fetch := by
      rw [step_memRead_of_running hrun h, hop]; rfl
    rw [step_ir_of_running hrun h, hpc, hcell]
    exact ⟨rfl, hop⟩

theorem step_keeps_diagUnrecognized {s t : State} (hs : s.DiagUnrecognized) (h : step s = .next t) :
    t.DiagUnrecognized := by
  cases hrun : s.halt with
  | true => rwa [step_next_of_halted hrun h]
  | false =>
    intro op hop
    rw [step_diagOpcodes_of_running hrun h, List.mem_append] at hop
    rcases hop with hold | hnew
    · exact hs op hold
    · split at hnew
      · next hunr => rwa [List.mem_singleton.1 hnew]
      · cases hnew

theorem step_keeps_inv {s t : State} (hs : s.Inv) (h : step s = .next t) : t.Inv where
  memory := step_keeps_memoryCanonical hs.memory h
  halted := step_keeps_haltCoherent hs.halted h
  diag := step_keeps_diagUnrecognized hs.diag h

/-- What a boot leaves before the first tick (R141) meets the invariant. -/
theorem State.RegistersReset.inv {s : State} (hregs : s.RegistersReset) (hmem : s.MemoryCanonical) : s.Inv := by
  obtain ⟨-, -, -, hhalt, htrace⟩ := hregs
  exact { memory := hmem
          halted := by simp [State.HaltCoherent, hhalt]
          diag := by simp [State.DiagUnrecognized, State.diagOpcodes, htrace] }

theorem State.reset_registersReset : State.reset.RegistersReset := ⟨rfl, rfl, rfl, rfl, rfl⟩

theorem State.reset_inv : State.reset.Inv := State.reset_registersReset.inv State.reset_memory_wf

theorem exec_hlt (n : Nibble) (s : State) : exec (.hlt n) s = .next s.setHalt := rfl

theorem decodeByte_of_hlt {byte : Byte} (h : opcodeOf byte = 0b0111#4) : decodeByte byte = .hlt (operandOf byte) := by
  rw [decodeByte, h]
  rfl

theorem State.setIr_self (s : State) : s.setIr s.ir = s := rfl

theorem State.setHalt_of_halted {s : State} (h : s.halt = true) : s.setHalt = s := by
  rw [State.setHalt, ← h]

/-- R76: the halted machine's next cycle would fetch the HLT that IR already holds and set the HALT that is already 1. -/
theorem cycle_of_haltCoherent {s : State} (hs : s.HaltCoherent) (hhalt : s.halt = true) : cycle s = .next s := by
  obtain ⟨hir, hop⟩ := hs hhalt
  have hfetch : s.fetch = s.ir := hir.symm
  have hfetched : s.fetched = s := by rw [State.fetched, hfetch, State.setIr_self]
  rw [cycle, hfetched, hfetch, decodeByte_of_hlt hop, exec_hlt, State.setHalt_of_halted hhalt]

end Sys2Proof.Machine

section
open Sys2Proof Sys2Proof.Machine

/-- Settles O27, part by part: the invariant's three parts are each kept by a step. -/
theorem stepKeepsTheInvariant : Obligations.StepKeepsTheInvariant :=
  fun _ _ hs h => step_keeps_inv hs h

/-- Settles O28: the reset state has reset registers and the empty, canonical memory. -/
theorem resetMeetsTheInvariant : Obligations.ResetMeetsTheInvariant := State.reset_inv

/-- Settles O29: the fetch and the HLT it finds both write what is already there. -/
theorem ungatedHaltedCycleChangesNothing : Obligations.UngatedHaltedCycleChangesNothing :=
  fun _ hs hhalt => cycle_of_haltCoherent hs.halted hhalt

end

/-! ### The host's moves (spec/50_interfaces.md R111 to R120, spec/70_reset_and_hazards.md R141, R144)

What a load and a tick can be, said once; every property of a session is then a case per move. -/

namespace Sys2Proof.Machine

theorem hostMove_load_booted (s : State) {image : List Byte} (hlen : image.length ≤ 16) :
    hostMove (.booted s) (.load image) = .next (.loaded { s with mem := Memory.load s.mem image }) :=
  if_pos ((imageFits_iff image).2 hlen)

theorem hostMove_load_overflow (s : State) {image : List Byte} (hlen : 16 < image.length) :
    hostMove (.booted s) (.load image) = .refused .loadOverflow :=
  if_neg fun hfits => absurd ((imageFits_iff image).1 hfits) (not_le.2 hlen)

/-- Everything a load that is not refused can be: an image that fits, in a booted session. -/
theorem hostMove_load_next {σ σ' : Session} {image : List Byte} (h : hostMove σ (.load image) = .next σ') :
    ∃ s, σ = .booted s ∧ image.length ≤ 16 ∧ σ' = .loaded { s with mem := Memory.load s.mem image } := by
  cases σ with
  | booted s =>
    rcases le_or_gt image.length 16 with hfits | hover
    · rw [hostMove_load_booted s hfits] at h
      exact ⟨s, rfl, hfits, by cases h; rfl⟩
    · rw [hostMove_load_overflow s hover] at h
      cases h
  | unbooted | loaded s | running s => cases h

/-- Everything a tick that is not refused can be: a step of the session's state. -/
theorem hostMove_tick_next {σ σ' : Session} (h : hostMove σ .tick = .next σ') :
    ∃ s t, σ.state? = some s ∧ step s = .next t ∧ σ' = .running t := by
  cases σ with
  | unbooted => cases h
  | booted s | loaded s | running s =>
    obtain ⟨t, ht⟩ := tickOnce_next h
    exact ⟨s, t, rfl, ht⟩

/-- The state of a session that meets its invariant meets the machine's. -/
theorem Session.Inv.state_inv {σ : Session} {s : State} (hσ : σ.Inv) (hs : σ.state? = some s) : s.Inv := by
  cases σ <;> cases hs
  case booted => exact (show s = State.reset from hσ) ▸ State.reset_inv
  case loaded =>
    obtain ⟨hmem, hregs⟩ := hσ
    exact hregs.inv hmem
  case running => exact hσ

theorem hostMove_keeps_inv {σ σ' : Session} {m : HostMove} (hσ : σ.Inv) (h : hostMove σ m = .next σ') : σ'.Inv := by
  cases m with
  | reset => cases h; rfl
  | load image =>
    obtain ⟨s, rfl, -, rfl⟩ := hostMove_load_next h
    obtain rfl : s = State.reset := hσ
    exact ⟨Memory.wf_load State.reset_memory_wf image, State.reset_registersReset⟩
  | tick =>
    obtain ⟨s, t, hs, hstep, rfl⟩ := hostMove_tick_next h
    exact step_keeps_inv (hσ.state_inv hs) hstep

theorem hostMoves_keep_inv (moves : List HostMove) {σ σ' : Session} (hσ : σ.Inv)
    (h : hostMoves σ moves = .next σ') : σ'.Inv := by
  induction moves generalizing σ with
  | nil => cases h; exact hσ
  | cons m rest ih =>
    unfold hostMoves at h
    split at h
    · next σ₁ hm => exact ih (hostMove_keeps_inv hσ hm) h
    · cases h
    · cases h

/-- R112, R119: a load keeps HALT and a tick never clears it. -/
theorem hostMove_keeps_halted {σ σ' : Session} {m : HostMove} (h : hostMove σ m = .next σ') (hσ : σ.halted = true)
    (hm : m ≠ .reset) : σ'.halted = true := by
  cases m with
  | reset => exact absurd rfl hm
  | load image =>
    obtain ⟨s, rfl, -, rfl⟩ := hostMove_load_next h
    exact hσ
  | tick =>
    obtain ⟨s, t, hs, hstep, rfl⟩ := hostMove_tick_next h
    rw [Session.halted_of_state hs] at hσ
    exact (step_halt_iff hstep).2 (.inl hσ)

end Sys2Proof.Machine

section
open Sys2Proof Sys2Proof.Machine

/-- Settles O45, move by move: Reset gives the reset state, a load writes into it, and a tick is a step from a state with
the machine's invariant. -/
theorem hostMovesKeepTheSessionInvariant : Obligations.HostMovesKeepTheSessionInvariant :=
  fun _ _ _ hσ h => hostMove_keeps_inv hσ h

/-- Settles O46, by induction on the schedule with the session's invariant, which holds before power-on. -/
theorem everyReachableMachineIsSound : Obligations.EveryReachableMachineIsSound :=
  fun moves _ _ h hs => (hostMoves_keep_inv (σ := .unbooted) moves trivial h).state_inv hs

/-- Settles O44: Reset answers the reset state in every session, and the two other moves keep a HALT of 1. -/
theorem onlyResetClearsHalt : Obligations.OnlyResetClearsHalt :=
  ⟨fun _ => ⟨State.reset, rfl, rfl⟩, fun _ _ _ h hσ hm => hostMove_keeps_halted h hσ hm⟩

/-- Settles O41: the boundary's length check, and what memory reads after a load. -/
theorem loadWritesTheImageOrIsRefused : Obligations.LoadWritesTheImageOrIsRefused :=
  fun s _ => ⟨fun hlen => ⟨_, hostMove_load_booted s hlen, Memory.read_load s.mem hlen, rfl, rfl, rfl, rfl, rfl⟩,
    hostMove_load_overflow s⟩

/-- Settles O42: a load in the session that Reset leaves, of an image that fits or does not. -/
theorem bootGivesTheLaunchState : Obligations.BootGivesTheLaunchState := by
  intro image
  have hreset : hostMove .unbooted .reset = .next (.booted State.reset) := rfl
  by_cases hlen : image.length ≤ 16
  · simp only [hostMoves, hreset, hostMove_load_booted _ hlen, hlen, if_true]; rfl
  · simp only [hostMoves, hreset, hostMove_load_overflow _ (not_le.1 hlen), hlen, if_false]

/-- Settles O43: the refusing arms of the boundary, which look at the session alone. -/
theorem excludedHostMovesAreRefused : Obligations.ExcludedHostMovesAreRefused :=
  ⟨rfl, fun _ _ => ⟨rfl, rfl, rfl⟩⟩

end

/-! ### What no cycle reads: IR and the event record (spec/10_state.md R18, R27)

An instruction's effect commutes with overwriting IR and with putting earlier events before the record, and the PC it leaves
depends on neither. -/

namespace Sys2Proof.Machine

theorem effectOf_setIr (i : Instr) (s : State) (b : Byte) : effectOf i (s.setIr b) = (effectOf i s).setIr b := by
  cases i <;> rfl

theorem nextPcOf_setIr (i : Instr) (s : State) (b : Byte) : nextPcOf i (s.setIr b) = nextPcOf i s := by
  cases i <;> rfl

theorem exec_setIr {i : Instr} {s t : State} (b : Byte) (h : exec i s = .next t) :
    exec i (s.setIr b) = .next (t.setIr b) := by
  rw [exec_eq] at h ⊢
  cases h
  rw [effectOf_setIr, nextPcOf_setIr]
  rfl

/-- The fetch overwrites whatever IR held (R67). -/
theorem step_setIr_of_running {s : State} (b : Byte) (hrun : s.halt = false) : step (s.setIr b) = step s := by
  rw [step_of_running hrun, step_of_running (s := s.setIr b) hrun]
  rfl

/-- The state with events put before those of its record. -/
def State.precededBy (s : State) (earlier : List Event) : State := { s with trace := earlier ++ s.trace }

theorem effectOf_precededBy (i : Instr) (s : State) (earlier : List Event) :
    effectOf i (s.precededBy earlier) = (effectOf i s).precededBy earlier := by
  cases i
  case out | unr9 | unrA | unrB | unrC | unrD | unrE | unrF =>
    simp [effectOf, State.emit, State.precededBy, List.append_assoc]
  all_goals rfl

theorem nextPcOf_precededBy (i : Instr) (s : State) (earlier : List Event) :
    nextPcOf i (s.precededBy earlier) = nextPcOf i s := by
  cases i <;> rfl

theorem exec_precededBy {i : Instr} {s t : State} (earlier : List Event) (h : exec i s = .next t) :
    exec i (s.precededBy earlier) = .next (t.precededBy earlier) := by
  rw [exec_eq] at h ⊢
  cases h
  rw [effectOf_precededBy, nextPcOf_precededBy]
  rfl

theorem step_precededBy {s t : State} (earlier : List Event) (h : step s = .next t) :
    step (s.precededBy earlier) = .next (t.precededBy earlier) := by
  cases hrun : s.halt with
  | true =>
    rw [step_next_of_halted hrun h]
    exact step_of_halted hrun
  | false =>
    rw [step_of_running hrun] at h
    rw [step_of_running (s := s.precededBy earlier) hrun]
    exact exec_precededBy earlier h

end Sys2Proof.Machine

section
open Sys2Proof Sys2Proof.Machine

/-- Settles O18: an instruction's effect commutes with writing IR, and a cycle's fetch overwrites it. -/
theorem irIsNeverAnInput : Obligations.IrIsNeverAnInput :=
  ⟨fun _ _ _ b h => exec_setIr b h, fun _ b hrun => step_setIr_of_running b hrun⟩

/-- Settles O30: an instruction only appends to the record, so events put before it stay before it. -/
theorem eventRecordIsNeverRead : Obligations.EventRecordIsNeverRead :=
  fun _ _ earlier h => step_precededBy earlier h

end

/-! ### The snapshot determines the cycle (spec/10_state.md R24, spec/50_interfaces.md R116) -/

namespace Sys2Proof.Machine

theorem mem_allAddrs (a : Addr) : a ∈ allAddrs :=
  List.mem_map.2 ⟨a.toNat, List.mem_range.2 a.isLt, by simp⟩

/-- The snapshot shows the cells, ACC, PC, IR and HALT, and nothing else: not the event
record (R116). -/
theorem sameSnapshot_iff {s t : State} : SameSnapshot s t ↔
    s.memRead = t.memRead ∧ s.acc = t.acc ∧ s.pc = t.pc ∧ s.ir = t.ir ∧ s.halt = t.halt := by
  have hcells : allAddrs.map s.memRead = allAddrs.map t.memRead ↔ s.memRead = t.memRead := by
    simp [List.map_inj_left, mem_allAddrs, funext_iff]
  simp only [SameSnapshot, State.snapshot, Snapshot.mk.injEq, hcells]
  constructor
  · rintro ⟨hmem, hacc, -, hir, hpc, hhalt⟩
    exact ⟨hmem, hacc, hpc, hir, hhalt⟩
  · rintro ⟨hmem, hacc, hpc, hir, hhalt⟩
    exact ⟨hmem, hacc, congrArg zext8 hpc, hir, hpc, hhalt⟩

/-- R24: every element after the step is a function of what the snapshot shows. -/
theorem step_of_sameSnapshot {s s' t t' : State} (hs : SameSnapshot s s') (h : step s = .next t)
    (h' : step s' = .next t') :
    SameSnapshot t t' ∧ ∃ events : List Event, t.trace = s.trace ++ events ∧ t'.trace = s'.trace ++ events := by
  obtain ⟨hmem, hacc, hpc, hir, hhalt⟩ := sameSnapshot_iff.1 hs
  cases hrun : s.halt with
  | true =>
    rw [step_next_of_halted hrun h, step_next_of_halted (hhalt ▸ hrun) h']
    exact ⟨hs, [], by simp⟩
  | false =>
    have hrun' : s'.halt = false := hhalt ▸ hrun
    have hfetch : s.fetch = s'.fetch := by rw [State.fetch, State.fetch, hmem, hpc]
    refine ⟨sameSnapshot_iff.2 ⟨funext fun a => ?_, ?_, ?_, ?_, ?_⟩, _, step_trace_of_running hrun h, ?_⟩
    · rw [step_memRead_of_running hrun h, step_memRead_of_running hrun' h', hfetch, hacc, hmem]
    · rw [step_acc_of_running hrun h, step_acc_of_running hrun' h', hfetch, hacc, hmem]
    · rw [step_pc_of_running hrun h, step_pc_of_running hrun' h', hfetch, hacc, hmem, hpc]
    · rw [step_ir_of_running hrun h, step_ir_of_running hrun' h', hfetch]
    · rw [step_halt_of_running hrun h, step_halt_of_running hrun' h', hfetch]
    · rw [step_trace_of_running hrun' h', hfetch, hacc]

end Sys2Proof.Machine

section
open Sys2Proof Sys2Proof.Machine

/-- Settles O31: the two states agree on every element the running step's tables read. -/
theorem snapshotDeterminesTheCycle : Obligations.SnapshotDeterminesTheCycle :=
  fun _ _ _ _ hs h h' => step_of_sameSnapshot hs h h'

end

/-! ### The datapath (spec/40_cycle.md R71, R72)

Each unit of the datapath against the instruction's effect or its PC, under the control row of that instruction. -/

namespace Sys2Proof.Machine

theorem State.control_of_halted {s : State} (h : s.halt = true) : s.control = Control.halted := if_pos h

theorem State.control_of_running {s : State} (h : s.halt = false) : s.control = Control.ofOpcode (opcodeOf s.fetch) := by
  rw [State.control, h]
  rfl

theorem datapathTick_of_halted {s : State} (h : s.halt = true) : datapathTick s = s := by
  have hc := State.control_of_halted h
  simp [datapathTick, State.nextAcc, State.nextPc, State.cycleEvent, hc, Control.halted, Control.sequential]

theorem Control.enables_ofOpcode_le (op : Nibble) : (Control.ofOpcode op).enables ≤ 1 := by
  revert op; decide

theorem State.control_enables_le (s : State) : s.control.enables ≤ 1 := by
  cases h : s.halt with
  | true => rw [State.control_of_halted h]; decide
  | false => rw [State.control_of_running h]; exact Control.enables_ofOpcode_le _

theorem operandOf_of_decode {s : State} {i : Instr} (hi : decodeByte s.fetch = i) :
    operandOf (Memory.read s.mem s.pc) = i.operand :=
  hi ▸ (decodeByte_operand s.fetch).symm

theorem opcodeOf_of_decode {s : State} {i : Instr} (hi : decodeByte s.fetch = i) :
    opcodeOf (Memory.read s.mem s.pc) = i.opcode :=
  hi ▸ (decodeByte_opcode s.fetch).symm

section
variable {s : State} {i : Instr} (hrun : s.halt = false) (hi : decodeByte s.fetch = i)
include hrun hi

theorem State.control_of_decode : s.control = Control.ofOpcode i.opcode := by
  rw [State.control_of_running hrun, ← hi, decodeByte_opcode]

/-- The 4-bit ALU computes ADD's and SUB's results, and the other rows hold ACC or load it (R72). -/
theorem State.nextAcc_of_running : s.nextAcc = (effectOf i s.fetched).acc := by
  rw [State.nextAcc, State.readBus, State.control_of_decode hrun hi, operandOf_of_decode hi]
  cases i
  case add a => exact (addResult_eq_lowNibble_add _ _).symm
  case sub a => exact (subResult_eq_lowNibble_sub _ _).symm
  all_goals rfl

/-- The incrementer and the comparator compute the next PC (R72). -/
theorem State.nextPc_of_running : s.nextPc = nextPcOf i s.fetched := by
  rw [State.nextPc, State.comparator, State.readBus, State.control_of_decode hrun hi, operandOf_of_decode hi]
  cases i
  case jmp | hlt => rfl
  case cmp a =>
    have hcmp : (some (s.memRead a) == some s.acc) = true ↔ s.acc = s.memRead a := by simp [eq_comm (a := s.acc)]
    rw [nextPcOf, pcPlus_one, pcPlus_two]
    exact if_congr hcmp rfl rfl
  all_goals exact (pcPlus_one s.pc).symm

theorem State.cycleEvent_of_running : s.trace ++ s.cycleEvent.toList = (effectOf i s.fetched).trace := by
  rw [State.cycleEvent, State.control_of_decode hrun hi, opcodeOf_of_decode hi]
  cases i
  case out | unr9 | unrA | unrB | unrC | unrD | unrE | unrF => rfl
  all_goals exact List.append_nil _

theorem datapathTick_of_running : datapathTick s = (effectOf i s.fetched).setPc (nextPcOf i s.fetched) := by
  rw [datapathTick, State.setPc, State.mk.injEq, State.control_of_decode hrun hi, operandOf_of_decode hi]
  refine ⟨?_, State.nextAcc_of_running hrun hi, State.nextPc_of_running hrun hi, ?_, ?_,
    State.cycleEvent_of_running hrun hi⟩
  · cases i <;> rfl
  · cases i <;> rfl
  · rw [effectOf_halt, State.fetched_halt]; cases i <;> rfl

end

/-- The datapath's tick is the step, and so the step is total. -/
theorem step_eq_datapathTick (s : State) : step s = .next (datapathTick s) := by
  cases hrun : s.halt with
  | true => rw [step_of_halted hrun, datapathTick_of_halted hrun]
  | false => rw [step_of_running hrun, exec_eq, datapathTick_of_running hrun rfl]

end Sys2Proof.Machine

section
open Sys2Proof Sys2Proof.Machine

/-- Settles O33, unit by unit: the ALU, the incrementer with the comparator, the event and the write enables of the decoded
instruction's row. -/
theorem datapathRealisesTheStep : Obligations.DatapathRealisesTheStep :=
  ⟨step_eq_datapathTick, State.control_enables_le⟩

/-- Settles O19: the successor is the datapath's tick, and a step has one answer. -/
theorem everyStateHasOneSuccessor : Obligations.EveryStateHasOneSuccessor :=
  fun s => ⟨⟨datapathTick s, step_eq_datapathTick s, fun t h => by
    rw [step_eq_datapathTick] at h; cases h; rfl⟩, step_of_halted⟩

end

/-! ### Runs (spec/40_cycle.md R66, spec/70_reset_and_hazards.md R150)

A run is the iteration of the total step, here in its datapath form. -/

namespace Sys2Proof.Machine

theorem core_run_eq_iterate (n : Nat) (s : State) : Sys2Proof.core.run n s = .next (datapathTick^[n] s) := by
  induction n generalizing s with
  | zero => rfl
  | succ n ih => rw [core_run_of_next n (step_eq_datapathTick s), ih, Function.iterate_succ_apply]

theorem datapathTick_sameSnapshot {s s' : State} (h : SameSnapshot s s') :
    SameSnapshot (datapathTick s) (datapathTick s') :=
  (step_of_sameSnapshot h (step_eq_datapathTick s) (step_eq_datapathTick s')).1

theorem iterate_sameSnapshot {s s' : State} (h : SameSnapshot s s') (n : Nat) :
    SameSnapshot (datapathTick^[n] s) (datapathTick^[n] s') := by
  induction n with
  | zero => exact h
  | succ n ih =>
    rw [Function.iterate_succ_apply', Function.iterate_succ_apply']
    exact datapathTick_sameSnapshot ih

/-- What a snapshot shows, as a value of a finite type. -/
def State.shown (s : State) : (Addr → Byte) × Byte × Addr × Byte × Bool := (s.memRead, s.acc, s.pc, s.ir, s.halt)

theorem sameSnapshot_iff_shown {s t : State} : SameSnapshot s t ↔ s.shown = t.shown := by
  simp only [sameSnapshot_iff, State.shown, Prod.mk.injEq]

/-- Among infinitely many ticks two show the same snapshot, since there are finitely many snapshots. -/
theorem exists_repeated_snapshot (s : State) :
    ∃ m n, m < n ∧ SameSnapshot (datapathTick^[m] s) (datapathTick^[n] s) := by
  obtain ⟨m, n, hne, heq⟩ := Finite.exists_ne_map_eq_of_infinite fun n => (datapathTick^[n] s).shown
  rcases lt_or_gt_of_ne hne with hlt | hgt
  · exact ⟨m, n, hlt, sameSnapshot_iff_shown.2 heq⟩
  · exact ⟨n, m, hgt, sameSnapshot_iff_shown.2 heq.symm⟩

end Sys2Proof.Machine

section
open Sys2Proof Sys2Proof.Machine

/-- Settles O20: a halted state is a fixed point of the step. -/
theorem haltedMachineStaysAsItIs : Obligations.HaltedMachineStaysAsItIs := by
  intro n s hhalt
  rw [core_run_eq_iterate, Function.iterate_fixed (datapathTick_of_halted hhalt)]

/-- Settles O32, by the pigeonhole on snapshots: from the first of two equal ones on, the run repeats what lies between. -/
theorem everyRunIsEventuallyPeriodic : Obligations.EveryRunIsEventuallyPeriodic := by
  intro s
  obtain ⟨m, n, hlt, hsame⟩ := exists_repeated_snapshot s
  refine ⟨m, n - m, Nat.sub_pos_of_lt hlt, fun k => ⟨_, _, core_run_eq_iterate _ s, core_run_eq_iterate _ s, ?_⟩⟩
  have hend : m + k + (n - m) = k + n := by omega
  rw [hend, Nat.add_comm m k, Function.iterate_add_apply, Function.iterate_add_apply]
  exact iterate_sameSnapshot hsame k

end

/-! ### The low nibble (spec/43_arithmetic.md R92, spec/10_state.md R14)

ADD and SUB see the low nibbles alone, and their results are below 16; a store and an output carry ACC. So where LDA brings
in no larger value, none arises. -/

namespace Sys2Proof.Machine

theorem lowNibble_eq_of_mod_eq {x y : Byte} (h : x.toNat % 16 = y.toNat % 16) : lowNibble x = lowNibble y :=
  BitVec.eq_of_toNat_eq (by simp only [lowNibble_toNat, h])

theorem addResult_toNat_lt (acc m : Byte) : (addResult acc m).toNat < 16 := by
  rw [addResult_toNat]
  exact Nat.mod_lt _ (by decide)

theorem subResult_toNat_lt (acc m : Byte) : (subResult acc m).toNat < 16 := by
  have := subResult_toNat acc m
  omega

theorem step_acc_toNat_lt {s t : State} (hacc : s.acc.toNat < 16)
    (hlda : opcodeOf s.fetch = 0b0001#4 → (s.memRead (operandOf s.fetch)).toNat < 16) (h : step s = .next t) :
    t.acc.toNat < 16 := by
  cases hrun : s.halt with
  | true => rwa [step_next_of_halted hrun h]
  | false =>
    rw [step_acc_of_running hrun h]
    split_ifs with hop
    · exact hlda hop
    · exact addResult_toNat_lt _ _
    · exact subResult_toNat_lt _ _
    · exact hacc

theorem step_changed_cell {s t : State} (h : step s = .next t) {a : Addr} (ha : t.memRead a ≠ s.memRead a) :
    t.memRead a = s.acc := by
  cases hrun : s.halt with
  | true => exact absurd (by rw [step_next_of_halted hrun h]) ha
  | false =>
    rw [step_memRead_of_running hrun h] at ha ⊢
    split_ifs at ha ⊢
    · rfl
    · exact absurd rfl ha

theorem step_outValues {s t : State} (h : step s = .next t) :
    ∃ vs : List Byte, t.outValues = s.outValues ++ vs ∧ ∀ v ∈ vs, v = s.acc := by
  cases hrun : s.halt with
  | true => exact ⟨[], by simp [step_next_of_halted hrun h]⟩
  | false =>
    refine ⟨_, step_outValues_of_running hrun h, fun v hv => ?_⟩
    split at hv
    · exact List.mem_singleton.1 hv
    · cases hv

end Sys2Proof.Machine

section
open Sys2Proof Sys2Proof.Machine

/-- Settles O34: the results are functions of the low nibbles. -/
theorem upperNibblesDoNotReachTheAlu : Obligations.UpperNibblesDoNotReachTheAlu := by
  refine ⟨fun A M => ⟨addResult_eq_lowNibble_add A M, subResult_eq_lowNibble_sub A M⟩, fun A A' M M' hA hM => ?_⟩
  simp only [addResult_eq_lowNibble_add, subResult_eq_lowNibble_sub, lowNibble_eq_of_mod_eq hA,
    lowNibble_eq_of_mod_eq hM, and_self]

/-- Settles O35: ACC row by row of its table, and what a step stores or emits is the ACC it started with. -/
theorem smallAccumulatorStaysSmall : Obligations.SmallAccumulatorStaysSmall := by
  intro s t hacc hlda h
  obtain ⟨vs, hout, hvs⟩ := step_outValues h
  exact ⟨step_acc_toNat_lt hacc hlda h, fun a ha => by rwa [step_changed_cell h ha],
    vs, hout, fun v hv => by rwa [hvs v hv]⟩

end

/-! ### Code and data in one memory (spec/20_memory.md R40, R44)

The fetch comes first in a cycle and a store takes effect before the next one, seen on a byte written as its two fields. -/

namespace Sys2Proof.Machine

/-- The step of a running machine whose PC addresses a byte written as its two fields. -/
theorem step_of_fetch_eq {s : State} {op n : Nibble} (hrun : s.halt = false) (hbyte : s.fetch = encodeFields op n) :
    step s = exec (instrOf op n) s.fetched := by
  rw [step_of_running hrun, hbyte, decodeByte_encodeFields]

/-- R44: a STO to the next cell leaves a running machine whose next fetch is the stored ACC. -/
theorem fetch_after_sto_to_next {s t : State} (hrun : s.halt = false)
    (hbyte : s.fetch = encodeFields 0b0100#4 (s.pc + 1#4)) (h : step s = .next t) :
    t.halt = false ∧ t.fetch = s.acc := by
  have hop : opcodeOf s.fetch = 0b0100#4 := by rw [hbyte, opcodeOf_encodeFields]
  have hoperand : operandOf s.fetch = s.pc + 1#4 := by rw [hbyte, operandOf_encodeFields]
  have hpc : t.pc = s.pc + 1#4 := by simp [step_pc_of_running hrun h, hop, pcPlus_one]
  have hhalt : t.halt = false := by rw [step_halt_of_running hrun h, hop]; rfl
  refine ⟨hhalt, ?_⟩
  rw [State.fetch, step_memRead_of_running hrun h, hop, hoperand, hpc, if_pos ⟨rfl, rfl⟩]

@[simp] theorem lowNibble_encodeFields (op n : Nibble) : lowNibble (encodeFields op n) = n :=
  operandOf_encodeFields op n

theorem encodeFields_toNat_mod (op n : Nibble) : (encodeFields op n).toNat % 16 = n.toNat := by
  rw [← lowNibble_toNat, lowNibble_encodeFields]

theorem addResult_encodeFields_toNat (acc : Byte) (op n : Nibble) :
    (addResult acc (encodeFields op n)).toNat = (acc.toNat + n.toNat) % 16 := by
  rw [addResult_toNat, Nat.add_mod, encodeFields_toNat_mod, Nat.mod_add_mod]

theorem subResult_encodeFields_toNat (acc : Byte) (op n : Nibble) :
    ((subResult acc (encodeFields op n)).toNat : Int) = ((acc.toNat : Int) - (n.toNat : Int)) % 16 := by
  have hlow := encodeFields_toNat_mod op n
  rw [subResult_toNat]
  omega

end Sys2Proof.Machine

section
open Sys2Proof Sys2Proof.Machine

/-- Settles O36: the next cycle is a running one, and its fetch finds the stored ACC. -/
theorem storeIsSeenByTheNextFetch : Obligations.StoreIsSeenByTheNextFetch := by
  intro s t hrun hbyte h
  obtain ⟨hrun', hfetch⟩ := fetch_after_sto_to_next hrun hbyte h
  rw [step_of_running hrun', State.fetched, hfetch]
  rfl

/-- Settles O37, opcode by opcode: the fetch keeps memory, so each of them meets its own byte in the addressed cell. -/
theorem ownAddressAsOperand : Obligations.OwnAddressAsOperand := by
  intro s hrun
  refine ⟨fun hsto => ⟨_, step_of_fetch_eq hrun hsto, hsto, ?_, ?_⟩,
    fun hlda => ⟨_, step_of_fetch_eq hrun hlda, hlda⟩,
    fun hadd => ⟨_, step_of_fetch_eq hrun hadd, ?_⟩,
    fun hsub => ⟨_, step_of_fetch_eq hrun hsub, ?_⟩,
    fun hcmp => ⟨_, (step_of_fetch_eq hrun hcmp).trans (exec_eq _ _), ?_⟩⟩
  · exact Memory.read_write_same s.mem s.pc s.acc
  · exact pcPlus_one s.pc
  · rw [← addResult_encodeFields_toNat s.acc _ s.pc, ← hadd]; rfl
  · rw [← subResult_encodeFields_toNat s.acc _ s.pc, ← hsub]; rfl
  · rw [State.setPc_pc, ← hcmp, ← pcPlus_one, ← pcPlus_two]; rfl

end

/-! ### Memory's canonical form

A canonical memory lists exactly the cells that do not read as unlisted ones, in rising order: it is its content. -/

namespace Sys2Proof.Machine

theorem Memory.mem_of_lookup_ne {m : Memory} {n : Nat} (h : m.lookup n ≠ Memory.unlisted) : (n, m.lookup n) ∈ m := by
  induction m with
  | nil => exact absurd rfl h
  | cons c rest ih =>
    obtain ⟨k, v⟩ := c
    unfold Memory.lookup at h ⊢
    split at h
    · next hk => simp [hk]
    · next hk => simpa [hk] using .inr (ih h)

theorem Memory.lookup_of_mem {m : Memory} (hsorted : m.Pairwise fun x y => x.1 < y.1) {c : Host.Cell} (hc : c ∈ m) :
    m.lookup c.1 = c.2 := by
  induction m with
  | nil => cases hc
  | cons d rest ih =>
    obtain ⟨hd, hrest⟩ := List.pairwise_cons.1 hsorted
    unfold Memory.lookup
    rcases List.mem_cons.1 hc with rfl | hc
    · exact if_pos rfl
    · rw [if_neg (hd c hc).ne, ih hrest hc]

/-- A listed cell is within the address space and does not read as an unlisted one, so any memory that reads the same lists
it too. -/
theorem Memory.wf.subset_of_read_eq {m m' : Memory} (h : m.wf) (hread : ∀ a : Addr, m.read a = m'.read a) : m ⊆ m' := by
  obtain ⟨hsorted, hcells⟩ := h
  intro c hc
  obtain ⟨hlt, hne⟩ := hcells c hc
  have haddr : (BitVec.ofNat 4 c.1).toNat = c.1 := Nat.mod_eq_of_lt hlt
  have hlookup : m'.lookup c.1 = c.2 := by
    rw [← Memory.lookup_of_mem hsorted hc]
    simpa [Memory.read, haddr] using (hread (BitVec.ofNat 4 c.1)).symm
  have hmem := Memory.mem_of_lookup_ne (hlookup ▸ hne)
  rwa [hlookup] at hmem

theorem Memory.wf.eq_of_read_eq {m m' : Memory} (h : m.wf) (h' : m'.wf) (hread : ∀ a : Addr, m.read a = m'.read a) :
    m = m' := by
  have hirrefl : Std.Irrefl fun x y : Host.Cell => x.1 < y.1 := ⟨fun x => lt_irrefl x.1⟩
  have hantisymm : Std.Antisymm fun x y : Host.Cell => x.1 < y.1 := ⟨fun _ _ hxy hyx => absurd hxy hyx.not_gt⟩
  exact List.Subset.antisymm_of_pairwise h.1 h'.1 (h.subset_of_read_eq hread)
    (h'.subset_of_read_eq fun a => (hread a).symm)

theorem Memory.write_read_self {m : Memory} (h : m.wf) (a : Addr) : m.write a (m.read a) = m := by
  refine (Memory.wf_write h a _).eq_of_read_eq h fun b => ?_
  rw [Memory.read_write]
  split_ifs with hb
  · rw [hb]
  · rfl

end Sys2Proof.Machine

section
open Sys2Proof Sys2Proof.Machine

/-- Settles O38: each of the two lists is contained in the other, and both are sorted. -/
theorem canonicalMemoryIsItsContent : Obligations.CanonicalMemoryIsItsContent :=
  fun _ _ h h' hread => h.eq_of_read_eq h' hread

/-- Settles O39: the memory written to is canonical and reads as before. -/
theorem storingTheOldValueChangesNothing : Obligations.StoringTheOldValueChangesNothing :=
  fun _ a h => Memory.write_read_self h a

end

/-! ### The pins (spec/50_interfaces.md R124) -/

namespace Sys2Proof.Machine

/-- The two valid signals are never 1 together, so the cycle's event is what each of them contributes. -/
theorem State.cycleEvent_toList (s : State) : s.cycleEvent.toList =
    (if s.control.outValid = true then [.out s.acc] else []) ++
      (if s.control.diagValid = true then [.diag (opcodeOf s.fetch)] else []) := by
  have henables := s.control_enables_le
  unfold State.cycleEvent
  cases hout : s.control.outValid <;> cases hdiag : s.control.diagValid
  case true.true =>
    simp only [Control.enables, hout, hdiag, Bool.toNat_true] at henables
    omega
  all_goals rfl

/-- The pulses and buses of an enabled cycle are the datapath's event. -/
theorem State.pins_event {p : PinsIn} (htick : p.tick = true) (s : State) :
    (if (s.pins p).outValid = true then [Event.out (s.pins p).outData] else []) ++
      (if (s.pins p).diagValid = true then [Event.diag (s.pins p).diagOpcode] else []) = s.cycleEvent.toList := by
  have hout : (s.pins p).outValid = s.control.outValid := by simp [State.pins, htick]
  have hdiag : (s.pins p).diagValid = s.control.diagValid := by simp [State.pins, htick]
  have hbus : (if (s.pins p).diagValid = true then [Event.diag (s.pins p).diagOpcode] else []) =
      if (s.pins p).diagValid = true then [Event.diag (opcodeOf s.fetch)] else [] :=
    ite_congr rfl (fun hvalid => by rw [State.pins_diagOpcode hvalid]) fun _ => rfl
  rw [hbus, hout, hdiag, State.cycleEvent_toList]
  rfl

theorem clockEdge_tick {p : PinsIn} (hrst : p.rst = false) (htick : p.tick = true) (hload : p.loadWe = false)
    (s : State) : clockEdge p s = step s := by
  simp only [clockEdge, hrst, htick, hload]

theorem clockEdge_reset (s : State) : clockEdge { PinsIn.idle with rst := true } s = .next State.reset := rfl

theorem clockEdge_load (a : Addr) (b : Byte) (s : State) :
    clockEdge { PinsIn.idle with loadWe := true, loadAddr := a, loadData := b } s = .next (s.memWrite a b) := rfl

theorem clockEdges_cons {p : PinsIn} {s t : State} (h : clockEdge p s = .next t) (rest : List PinsIn) :
    clockEdges (p :: rest) s = clockEdges rest t := by
  rw [clockEdges, h]

/-- One load edge per byte is the load of the bytes. -/
theorem clockEdges_loadEdges (image : List Byte) (i : Nat) (s : State) :
    clockEdges (loadEdges i image) s = .next { s with mem := Memory.loadFrom i image s.mem } := by
  induction image generalizing i s with
  | nil => rfl
  | cons b rest ih =>
    rw [loadEdges, clockEdges_cons (clockEdge_load _ b s), ih]
    rfl

end Sys2Proof.Machine

section
open Sys2Proof Sys2Proof.Machine

/-- Settles O47: an enabled edge is the step, the step is the datapath's tick, and that tick appends the event the pins
show. -/
theorem pinsCarryTheCyclesEvent : Obligations.PinsCarryTheCyclesEvent := by
  intro s p hrst htick hload
  have hstep := step_eq_datapathTick s
  refine ⟨datapathTick s, (clockEdge_tick hrst htick hload s).trans hstep, hstep, ?_⟩
  rw [List.append_assoc, State.pins_event htick]
  rfl

/-- Settles O48, by induction on the image: load edges from cell 0 on are the load, here of the reset state. -/
theorem pinLoadGivesTheLaunchState : Obligations.PinLoadGivesTheLaunchState := by
  intro s image _
  rw [clockEdges_cons (clockEdge_reset s), clockEdges_loadEdges]
  rfl

end

/-! ### The text image (spec/50_interfaces.md R121)

By induction on the whole bytes of a bit list, with fewer than 8 bits left at the end. -/

namespace Sys2Proof.Machine

theorem length_lt_eight_of_no_byte {bits : List Bool}
    (h : ∀ b7 b6 b5 b4 b3 b2 b1 b0 rest, bits = b7 :: b6 :: b5 :: b4 :: b3 :: b2 :: b1 :: b0 :: rest → False) :
    bits.length < 8 := by
  match bits, h with
  | _ :: _ :: _ :: _ :: _ :: _ :: _ :: _ :: _, h => exact (h _ _ _ _ _ _ _ _ _ rfl).elim
  | [], _ | [_], _ | [_, _], _ | [_, _, _], _ | [_, _, _, _], _ | [_, _, _, _, _], _ | [_, _, _, _, _, _], _
  | [_, _, _, _, _, _, _], _ => simp

theorem imageCells_length (bits : List Bool) : (imageCells bits).length = bits.length / 8 := by
  induction bits using imageCells.induct with
  | case1 b7 b6 b5 b4 b3 b2 b1 b0 rest ih =>
    simp only [imageCells, List.length_cons, ih]
    omega
  | case2 bits hshort =>
    rw [imageCells.eq_2 bits hshort, Nat.div_eq_of_lt (length_lt_eight_of_no_byte hshort), List.length_nil]

/-- A big-endian bit list numbers its bits from the end. -/
theorem getLsbD_ofBoolListBE_rev {bits : List Bool} {j : Nat} (hj : j < bits.length) :
    (BitVec.ofBoolListBE bits).getLsbD (bits.length - 1 - j) = bits.getD j false := by
  have hlt : bits.length - 1 - j < bits.length := by omega
  have hrev : bits.length - 1 - (bits.length - 1 - j) = j := by omega
  rw [BitVec.getLsbD_ofBoolListBE, hrev, decide_eq_true hlt, Bool.true_and]

theorem imageCells_getLsbD (bits : List Bool) {i j : Nat} (hi : i < bits.length / 8) (hj : j < 8) :
    ((imageCells bits).getD i 0x00#8).getLsbD (7 - j) = bits.getD (8 * i + j) false := by
  induction bits using imageCells.induct generalizing i with
  | case1 b7 b6 b5 b4 b3 b2 b1 b0 rest ih =>
    rw [imageCells]
    cases i with
    | zero =>
      have hbyte : j < [b7, b6, b5, b4, b3, b2, b1, b0].length := hj
      rw [List.getD_cons_zero, Nat.mul_zero, Nat.zero_add]
      exact (getLsbD_ofBoolListBE_rev hbyte).trans (List.getD_append _ rest false j hbyte).symm
    | succ i =>
      have hrest : i < rest.length / 8 := by
        simp only [List.length_cons] at hi
        omega
      rw [List.getD_cons_succ, ih hrest, Nat.mul_succ, Nat.add_right_comm]
      rfl
  | case2 bits hshort =>
    rw [Nat.div_eq_of_lt (length_lt_eight_of_no_byte hshort)] at hi
    exact absurd hi (Nat.not_lt_zero i)

theorem parseImage_of_le {text : List Char} (h : (imageBits text).length ≤ 128) :
    parseImage text = .next (imageCells (imageBits text)) := if_pos h

theorem parseImage_of_partial {text : List Char} (hlow : 128 < (imageBits text).length)
    (hhigh : (imageBits text).length < 136) : parseImage text = .refused .partialSeventeenthCell :=
  (if_neg hlow.not_ge).trans (if_pos hhigh)

theorem parseImage_of_overflow {text : List Char} (h : 136 ≤ (imageBits text).length) :
    parseImage text = .refused .loadOverflow :=
  (if_neg (lt_of_lt_of_le (by decide) h).not_ge).trans (if_neg h.not_gt)

end Sys2Proof.Machine

section
open Sys2Proof Sys2Proof.Machine

/-- Settles O49: the number of cells and their bits by induction on whole bytes, the refusals by the length alone. -/
theorem textImageGivesItsCells : Obligations.TextImageGivesItsCells :=
  fun _ => ⟨fun h => ⟨_, parseImage_of_le h, imageCells_length _, fun _ _ hi hj => imageCells_getLsbD _ hi hj⟩,
    parseImage_of_partial, parseImage_of_overflow⟩

end

/-! ### The other instructions, one by one (spec/41_nop.md to spec/46_halt.md)

What each answers, as an update of the state the fetch has left; its frame is the frame of that update. -/

namespace Sys2Proof.Machine

theorem exec_lda (a : Addr) (s : State) : exec (.lda a) s = .next (s.setAcc (s.memRead a)).advance := rfl

theorem exec_sto (a : Addr) (s : State) : exec (.sto a) s = .next (s.memWrite a s.acc).advance := rfl

theorem exec_out (n : Nibble) (s : State) : exec (.out n) s = .next (s.emit (.out s.acc)).advance := rfl

theorem exec_cmp (a : Addr) (s : State) : exec (.cmp a) s = .next (s.setPc (nextPcOf (.cmp a) s)) := execCmp_eq a s

theorem nextPcOf_cmp_of_ne {s : State} {a : Addr} (h : s.acc ≠ s.memRead a) :
    nextPcOf (.cmp a) s = pcPlus s.pc 1 := if_neg h

@[simp] theorem State.outValues_emit_out (s : State) (v : Byte) : (s.emit (.out v)).outValues = s.outValues ++ [v] :=
  List.filterMap_append

@[simp] theorem State.diagOpcodes_emit_out (s : State) (v : Byte) : (s.emit (.out v)).diagOpcodes = s.diagOpcodes :=
  List.filterMap_append.trans (List.append_nil _)

@[simp] theorem State.outValues_emit_diag (s : State) (op : Nibble) : (s.emit (.diag op)).outValues = s.outValues :=
  List.filterMap_append.trans (List.append_nil _)

/-- What an instruction that emits an event and advances does to everything but the record. -/
theorem State.emit_advance_frame (s : State) (e : Event) :
    (s.emit e).advance.pc.toNat = (s.pc.toNat + 1) % 16 ∧ (s.emit e).advance.acc = s.acc ∧
    (s.emit e).advance.ir = s.ir ∧ (s.emit e).advance.halt = s.halt ∧ SameMemory s (s.emit e).advance :=
  ⟨(s.emit e).advance_pc_toNat, rfl, rfl, rfl, fun a => State.memRead_congr (s := s) rfl a⟩

/-- The seven rows of unrecognized opcodes are rows of the opcode map (R55). -/
theorem unrecognized_row {i : Instr} {n : Nibble} {op : Nat}
    (h : (i, op) ∈ [(Instr.unr9 n, 9), (.unrA n, 10), (.unrB n, 11), (.unrC n, 12), (.unrD n, 13), (.unrE n, 14),
      (.unrF n, 15)]) : i = instrOf (BitVec.ofNat 4 op) n ∧ 9 ≤ op ∧ op < 16 := by
  simp only [List.mem_cons, List.not_mem_nil, Prod.mk.injEq, or_false] at h
  rcases h with ⟨rfl, rfl⟩ | ⟨rfl, rfl⟩ | ⟨rfl, rfl⟩ | ⟨rfl, rfl⟩ | ⟨rfl, rfl⟩ | ⟨rfl, rfl⟩ | ⟨rfl, rfl⟩ <;>
    exact ⟨rfl, by decide, by decide⟩

end Sys2Proof.Machine

section
open Sys2Proof Sys2Proof.Machine

/-- Settles O3: each byte's two fields, through the opcode map. -/
theorem writtenOutWordsDecode : Obligations.WrittenOutWordsDecode :=
  ⟨rfl, rfl, rfl, rfl, rfl, rfl, rfl, rfl, rfl, rfl⟩

/-- Settles O7: opcode 1 is LDA's row, and LDA writes the cell to ACC and advances. -/
theorem ldaLoadsTheWholeCell : Obligations.LdaLoadsTheWholeCell :=
  ⟨decodeByte_ofNat 0b0001#4, fun a s => ⟨_, exec_lda a s, rfl, s.setAcc_advance_frame _⟩⟩

/-- Settles O10: opcode 4 is STO's row, and STO is one memory write, whose laws say what every cell reads after it. -/
theorem stoStoresTheWholeAccumulator : Obligations.StoStoresTheWholeAccumulator :=
  ⟨decodeByte_ofNat 0b0100#4, fun a s => ⟨_, exec_sto a s, Memory.read_write_same s.mem a s.acc,
    fun _ hb => Memory.read_write_other s.mem s.acc hb, rfl, (s.memWrite a s.acc).advance_pc_toNat, rfl, rfl, rfl, rfl⟩⟩

/-- Settles O11: opcode 5 is OUT's row, and OUT appends one output event and advances. -/
theorem outEmitsTheAccumulator : Obligations.OutEmitsTheAccumulator :=
  ⟨decodeByte_ofNat 0b0101#4, fun n s => ⟨_, exec_out n s, rfl, s.outValues_emit_out s.acc, s.diagOpcodes_emit_out s.acc,
    s.emit_advance_frame _⟩⟩

/-- Settles O13: opcode 7 is HLT's row, and HLT's one write leaves a halted state, whose step is itself. -/
theorem hltHaltsInPlace : Obligations.HltHaltsInPlace :=
  ⟨decodeByte_ofNat 0b0111#4, fun n s => ⟨_, exec_hlt n s, rfl, rfl, rfl, rfl, rfl, State.memRead_congr s.setHalt_mem,
    step_of_halted s.setHalt_halt⟩⟩

/-- Settles O14: opcode 8 is CMP's row, and CMP's one write is of the PC, by the comparison. -/
theorem cmpSkipsOnEquality : Obligations.CmpSkipsOnEquality := by
  refine ⟨decodeByte_ofNat 0b1000#4, fun a s => ⟨_, exec_cmp a s, fun heq => ?_, fun hne => ?_, rfl, rfl, rfl, rfl,
    s.memRead_setPc _⟩⟩
  · rw [State.setPc_pc, nextPcOf_cmp_of_equal heq, pcPlus_toNat]
  · rw [State.setPc_pc, nextPcOf_cmp_of_ne hne, pcPlus_toNat]

/-- Settles O15: the seven rows share one rule, which emits the opcode on the diagnostic channel and advances. -/
theorem unrecognizedOpcodesAreNoOps : Obligations.UnrecognizedOpcodesAreNoOps := by
  intro n s i op hrow
  obtain ⟨rfl, hlow, hhigh⟩ := unrecognized_row hrow
  have hop : (BitVec.ofNat 4 op).toNat = op := Nat.mod_eq_of_lt hhigh
  have hbyte := decodeByte_ofNat (BitVec.ofNat 4 op) n
  rw [hop] at hbyte
  exact ⟨hbyte, _, exec_instrOf_unrecognized (hlow.trans_eq hop.symm) n s, rfl, s.outValues_emit_diag _,
    s.emit_advance_frame _⟩

/-- Settles O16: the instruction is the one the byte at PC decodes to, and the step is the cycle or, halted, nothing. -/
theorem stepRunsTheDecodedInstruction : Obligations.StepRunsTheDecodedInstruction := by
  intro s i rest hdecode _
  rw [decode_cons] at hdecode
  cases hdecode
  exact ⟨step_of_running, step_of_halted⟩

end
